-- ==== Sys2Proof/Word.lean ====
section
/-! DEFINITION. The words of the engine: bytes, command words and lanes (00_scope.md R11, R12). -/

namespace Sys2Proof

/-- "A byte is 8 bits with value 0..255" (R11). -/
abbrev Byte := BitVec 8

/-- The 32-bit command word W (R15, 30_encoding.md R70). -/
abbrev Word := BitVec 32

/-- "A lane is a 64-bit value" (R12). -/
abbrev Lane := BitVec 64

end Sys2Proof
end

