-- ==== Sys2Proof/Syntax.lean ====
section
/-! DEFINITION. The commands of the engine, one constructor per row of spec/opcode_table.json (30_encoding.md R72). -/

namespace Sys2Proof

/-- The twelve commands (R72) with their operands (R73). A command with a payload carries its bytes in arrival order,
and its length operand IS the payload's length: "A model represents a frame as the pair (W, P) with
|P| = PayloadLen(W) by construction" (R76). -/
inductive Instr where
  | status
  | clrErr
  | init (rate suffix outlen : Byte)
  | initK
  | absorb (payload : List Byte)
  | pad
  | squeeze (n : BitVec 16)
  | final
  | hash (payload : List Byte)
  | xorIn (offset : Byte) (payload : List Byte)
  | extract (offset len : Byte)
  | permute
  deriving DecidableEq, Repr

/-- The payload a command carries (R72, column "payload bytes"). -/
def Instr.payload : Instr → List Byte
  | .absorb p | .hash p | .xorIn _ p => p
  | .status | .clrErr | .init _ _ _ | .initK | .pad | .squeeze _ | .final | .extract _ _ | .permute => []

end Sys2Proof
end

