-- ==== Sys2Proof/Machine/State.lean ====
section
/-! DEFINITION. The state of one engine, as plain data: every piece of state that 10_state.md and
70_reset_and_hazards.md R230 name, the reset line (R231) and the fault record (60_exceptions.md R208). -/

namespace Sys2Proof.Machine

/-- PHASE (10_state.md R24): two bits, of which "All four encodings are legal". -/
inductive Phase where
  | idle
  | absorbing
  | squeezing
  | done
  deriving DecidableEq, Repr

/-- The error conditions (60_exceptions.md R200). -/
inductive ErrorCode where
  | outOfRange
  | invalidState
  | alreadyFinalized
  | illegalCommand
  deriving DecidableEq, Repr

/-- The state space (20_memory.md R50): the bytes of S that are not 0x00, by address, addresses strictly rising.
An unlisted address reads 0x00, which is what reset leaves (R230; notes/assumptions/11.md). -/
abbrev Memory := List Host.Cell

/-- Why the engine has no next state. -/
inductive Fault where
  /-- Raised by `step` when the command channel holds the beginning of a frame and no more: "In the model, an incomplete
  frame is stuck: the engine has no step" (70_reset_and_hazards.md R240(a)). Safe: the engine waits and nothing changes. -/
  | frameIncomplete
  /-- Raised by `step` when the reset line is asserted with response bytes unread: "The model has no move" for it
  (R231, 93_implementation_defined.md U11). Safe: nothing is claimed of such a launch. -/
  | resetWithResponseUnread
  /-- Raised by `step` when the reset line is asserted while a frame is partly sent: "The model has no move" for it
  (R231, U11). Safe: nothing is claimed of such a launch. -/
  | resetWithinFrame
  /-- Raised by ABSORB, PAD, SQUEEZE and FINAL when the sponge would access a byte of S at an address that is not one of
  0..199, where MemRead and MemWrite are not defined (00_scope.md R14). It needs register values that 10_state.md R23
  does not call legal, which no run reaches. Safe: the model stops. -/
  | noSuchStateByte
  deriving DecidableEq, Repr

/-- Why an instruction has no meaning here. -/
inductive Refusal where
  /-- Raised by an arm of `exec` for a command not modelled. No arm raises it. Safe: the model stops. -/
  | notModelled (mnemonic : String)
  deriving DecidableEq, Repr

/-- One engine (10_state.md; 70_reset_and_hazards.md R230). -/
structure State where
  /-- S, the permutation state (R21) -/
  mem : Memory
  /-- PHASE (R24) -/
  phase : Phase
  /-- ERR, the sticky error register (R31) -/
  err : Byte
  /-- RATE (R25) -/
  rate : Byte
  /-- SUFFIX (R26) -/
  suffix : Byte
  /-- OUTLEN (R27) -/
  outlen : Byte
  /-- POS, the absorb position (R28) -/
  pos : Byte
  /-- SQZ_POS, how much of the squeeze window is emitted (R29) -/
  sqzPos : Byte
  /-- OUT_CNT, the bytes squeezed since the last PAD, saturating (R30) -/
  outCnt : BitVec 16
  /-- k, the index of the next frame of the run (R22) -/
  k : Nat
  /-- the command channel: bytes sent and not yet taken, oldest first (30_encoding.md R75) -/
  cmd : List Byte
  /-- the response channel: bytes emitted and not yet read, oldest first (R75) -/
  resp : List Byte
  /-- the reset input (R231) -/
  resetLine : Bool
  /-- the first non-zero response code of the run (60_exceptions.md R208) -/
  faultRecord : Option ErrorCode
  deriving DecidableEq, Repr

/-- The reset state (70_reset_and_hazards.md R230), with the reset line released and no fault recorded (R235). -/
def State.reset : State where
  mem := []
  phase := .idle
  err := 0x00
  rate := 0
  suffix := 0x00
  outlen := 0
  pos := 0
  sqzPos := 0
  outCnt := 0
  k := 0
  cmd := []
  resp := []
  resetLine := false
  faultRecord := none

end Sys2Proof.Machine
end

