-- ==== Sys2Proof/Machine/Flags.lean ====
section
/-! DEFINITION. The engine has no condition codes (10_state.md R33). Its status indicators are PHASE, ERR and the
response code; this file says how each is coded and computed, and holds the phase checks (60_exceptions.md R202). -/

namespace Sys2Proof.Machine

/-- PHASE[1:0] (10_state.md R24). -/
def phaseBits : Phase → BitVec 2
  | .idle => 0
  | .absorbing => 1
  | .squeezing => 2
  | .done => 3

/-- The response code of an error (60_exceptions.md R200). -/
def codeByte : ErrorCode → Byte
  | .outOfRange => 0x01
  | .invalidState => 0x02
  | .alreadyFinalized => 0x03
  | .illegalCommand => 0x04

/-- ERR after a failing command: "if ERR = 0x00, then ERR <- code, and otherwise ERR is unchanged" (R203(c)). -/
def stickyErr (err : Byte) (c : ErrorCode) : Byte := if err = 0x00 then codeByte c else err

/-- The fault record after a failing command: the first code of the run stays (R208). -/
def stickyFault (f : Option ErrorCode) (c : ErrorCode) : Option ErrorCode :=
  match f with
  | none => some c
  | some first => some first

/-- OUT_CNT <- min(65535, OUT_CNT + n) (10_state.md R30). -/
def saturatingAdd (c : BitVec 16) (n : Nat) : BitVec 16 := BitVec.ofNat 16 (min 65535 (c.toNat + n))

/-- "if OUT_CNT ≥ OUTLEN then PHASE <- DONE" (42_sponge.md R146). -/
def phaseAfterSqueeze (p : Phase) (outCnt : BitVec 16) (outlen : Byte) : Phase :=
  if outlen.toNat ≤ outCnt.toNat then .done else p

/-- The phase check of ABSORB and PAD: "if PHASE ≠ ABSORBING then raise Error(0x02)" (42_sponge.md R141, R144). -/
def absorbingCheck : Phase → Option ErrorCode
  | .absorbing => none
  | .idle | .squeezing | .done => some .invalidState

/-- The phase check of SQUEEZE: "if PHASE ∉ {SQUEEZING, DONE} then raise Error(0x02)" (R147). -/
def squeezingCheck : Phase → Option ErrorCode
  | .squeezing | .done => none
  | .idle | .absorbing => some .invalidState

/-- The phase checks of FINAL, InvalidState in IDLE, AlreadyFinalized in SQUEEZING and DONE
(43_hash_instance.md R165). -/
def finalCheck : Phase → Option ErrorCode
  | .absorbing => none
  | .idle => some .invalidState
  | .squeezing | .done => some .alreadyFinalized

end Sys2Proof.Machine
end

