-- ==== Sys2Proof/Machine/Keccak.lean ====
section
/-! DEFINITION. KeccakF, the permutation of the 200-byte state (40_permutation.md R100 to R107; 10_state.md R21).
The spec marks its tables and steps as general knowledge (93_implementation_defined.md G1 to G5;
notes/assumptions/12.md). -/

namespace Sys2Proof.Machine

/-- The 25 lanes, lane (x, y) at place x + 5·y (R21). -/
abbrev Lanes := List Lane

/-- rotl64(v, n) (00_scope.md R12). -/
def rotl64 (v : Lane) (n : Nat) : Lane := (v <<< (n % 64)) ||| (v >>> ((64 - n % 64) % 64))

/-- A[x][y]. "Indices x and y are always taken mod 5" (R101). -/
def laneXY (A : Lanes) (x y : Nat) : Lane := A.getD (x % 5 + 5 * (y % 5)) 0

/-- The array with A[x][y] = f x y for 0 ≤ x, y < 5. -/
def tabulate (f : Nat → Nat → Lane) : Lanes := (List.range 25).map fun n => f (n % 5) (n / 5)

/-- Byte a of a byte string; a string of 200 bytes is read at addresses 0..199 only. -/
def byteAt (S : List Byte) (a : Nat) : Byte := S.getD a 0

/-- Lane n = Σ_{k=0..7} S[8·n + k] · 2^(8·k) (R21). -/
def laneOfBytes (S : List Byte) (n : Nat) : Lane :=
  BitVec.ofNat 64 ((List.range 8).map fun k => (byteAt S (8 * n + k)).toNat * 2 ^ (8 * k)).sum

/-- The lanes of a byte string (R21, R101). -/
def toLanes (S : List Byte) : Lanes := (List.range 25).map (laneOfBytes S)

/-- "Writing a lane back is the inverse of the mapping above" (R21): byte 8n + k holds bits 8k+7 .. 8k of lane n
(20_memory.md R51). -/
def ofLanes (A : Lanes) : List Byte :=
  (List.range 200).map fun a => (A.getD (a / 8) 0).extractLsb' (8 * (a % 8)) 8

/-- The column parities C[x] of θ (R103). -/
def thetaC (A : Lanes) : List Lane :=
  (List.range 5).map fun x =>
    laneXY A x 0 ^^^ laneXY A x 1 ^^^ laneXY A x 2 ^^^ laneXY A x 3 ^^^ laneXY A x 4

/-- D[x] of θ, from the parities (R103). -/
def thetaD (C : List Lane) : List Lane :=
  (List.range 5).map fun x => C.getD ((x + 4) % 5) 0 ^^^ rotl64 (C.getD ((x + 1) % 5) 0) 1

/-- θ (R103). -/
def theta (A : Lanes) : Lanes := tabulate fun x y => laneXY A x y ^^^ (thetaD (thetaC A)).getD x 0

/-- The rotation offsets r[x][y], row x, column y (R104). -/
def rhoTable : List (List Nat) :=
  [[0, 36, 3, 41, 18],
   [1, 44, 10, 45, 2],
   [62, 6, 43, 15, 61],
   [28, 55, 25, 21, 56],
   [27, 20, 39, 8, 14]]

/-- r[x][y] (R104). -/
def rhoOffset (x y : Nat) : Nat := (rhoTable.getD x []).getD y 0

/-- ρ (R104). -/
def rho (A : Lanes) : Lanes := tabulate fun x y => rotl64 (laneXY A x y) (rhoOffset x y)

/-- π, written as a read: A'[x][y] = A[(x + 3·y) mod 5][x] (R105). -/
def piStep (A : Lanes) : Lanes := tabulate fun x y => laneXY A (x + 3 * y) x

/-- χ, from the input lanes only (R106; 90_conflicts.md C8). -/
def chi (A : Lanes) : Lanes :=
  tabulate fun x y => laneXY A x y ^^^ (~~~(laneXY A (x + 1) y) &&& laneXY A (x + 2) y)

/-- RC[i] (R107). -/
def roundConstants : List Lane :=
  [0x0000000000000001, 0x0000000000008082, 0x800000000000808A, 0x8000000080008000,
   0x000000000000808B, 0x0000000080000001, 0x8000000080008081, 0x8000000000008009,
   0x000000000000008A, 0x0000000000000088, 0x0000000080008009, 0x000000008000000A] ++
  [0x000000008000808B, 0x800000000000008B, 0x8000000000008089, 0x8000000000008003,
   0x8000000000008002, 0x8000000000000080, 0x000000000000800A, 0x800000008000000A,
   0x8000000080008081, 0x8000000000008080, 0x0000000080000001, 0x8000000080008008]

/-- ι (R107). -/
def iota (A : Lanes) (i : Nat) : Lanes :=
  tabulate fun x y => if x = 0 ∧ y = 0 then laneXY A 0 0 ^^^ roundConstants.getD i 0 else laneXY A x y

/-- Round(A, i) := ι(χ(π(ρ(θ(A)))), i) (R102). -/
def keccakRound (A : Lanes) (i : Nat) : Lanes := iota (chi (piStep (rho (theta A)))) i

/-- The 24 rounds, i = 0, 1, ..., 23 in that order (R101, R102). -/
def keccakRounds (A : Lanes) : Lanes := (List.range 24).foldl keccakRound A

/-- KeccakF : Bytes[200] → Bytes[200] (R100, R101). -/
def keccakF (S : List Byte) : List Byte := ofLanes (keccakRounds (toLanes S))

end Sys2Proof.Machine
end

