-- ==== Sys2Proof/Machine/Operands.lean ====
section
/-! DEFINITION. The operand forms and the checks on them (30_encoding.md R73; 41_adapter.md R130;
43_hash_instance.md R161), and where the sponge's own accesses fall in the state space (41_adapter.md R134). -/

namespace Sys2Proof.Machine

/-- The bound of XOR_IN and EXTRACT: OutOfRange if offset + len > 200, the sum exact, with no 8-bit wrap (R130). -/
def windowCheck (offset : Byte) (len : Nat) : Option ErrorCode :=
  if offset.toNat + len > 200 then some .outOfRange else none

/-- The rate check of INIT: OutOfRange unless 1 ≤ rate ≤ 200 (R161). -/
def rateCheck (rate : Byte) : Option ErrorCode :=
  if rate.toNat < 1 ∨ rate.toNat > 200 then some .outOfRange else none

/-- The next absorb position: POS + 1, or 0 once the window is full (42_sponge.md R140). -/
def nextPos (rate pos : Byte) : Byte := if pos + 1 = rate then 0 else pos + 1

/-- Whether the n bytes an ABSORB takes from position `pos` on all go to addresses 0..199, the only ones MemWrite is
defined on (00_scope.md R14). -/
def absorbInState (rate : Byte) : Byte → Nat → Bool
  | _, 0 => true
  | pos, n + 1 => decide (pos.toNat < 200) && absorbInState rate (nextPos rate pos) n

/-- Whether POS and RATE − 1, the two addresses of the padding (R143), are among 0..199. -/
def padInState (rate pos : Byte) : Bool :=
  decide (pos.toNat < 200) && decide (1 ≤ rate.toNat) && decide (rate.toNat ≤ 200)

/-- The address the next squeezed byte comes from (42_sponge.md R146). -/
def squeezeFrom (rate sqzPos : Byte) : Byte := if sqzPos = rate then 0 else sqzPos

/-- Whether the n bytes a SQUEEZE emits all come from addresses 0..199. -/
def squeezeInState (rate : Byte) : Byte → Nat → Bool
  | _, 0 => true
  | q, n + 1 =>
    decide ((squeezeFrom rate q).toNat < 200) && squeezeInState rate (squeezeFrom rate q + 1) n

end Sys2Proof.Machine
end

