-- ==== Sys2Proof/Machine/Ops.lean ====
section
/-! DEFINITION. The named operations: reading and writing the state space (00_scope.md R14), completing a command,
and taking an error (60_exceptions.md R203). There is no trap return to stand beside it: "After an error, the next frame
executes as it would have without the error" (R206). -/

namespace Sys2Proof.Machine

/-! The state space (20_memory.md R50). -/

/-- One byte: S[a]. -/
def Memory.read : Memory → Nat → Byte
  | [], _ => 0x00
  | (b, v) :: m, a => if b = a then v else Memory.read m a

/-- The cells at every address but a. -/
def Memory.erase (m : Memory) (a : Nat) : Memory := m.filter fun c => c.1 != a

/-- A cell put before the first cell of a higher address. -/
def Memory.insert : Memory → Nat → Byte → Memory
  | [], a, v => [(a, v)]
  | (b, u) :: m, a, v => if a < b then (a, v) :: (b, u) :: m else (b, u) :: Memory.insert m a v

/-- S[a] <- v. A byte 0x00 is not listed. -/
def Memory.write (m : Memory) (a : Nat) (v : Byte) : Memory :=
  if v = 0x00 then m.erase a else (m.erase a).insert a v

/-- S[a] <- S[a] ^ v. -/
def Memory.xorByte (m : Memory) (a : Nat) (v : Byte) : Memory := m.write a (m.read a ^^^ v)

/-- XorIn(a, P): S[a + i] <- S[a + i] ^ P[i], in increasing i (R14). -/
def Memory.xorBytes : Memory → Nat → List Byte → Memory
  | m, _, [] => m
  | m, a, v :: p => Memory.xorBytes (m.xorByte a v) (a + 1) p

/-- MemRead(a, n), the byte string S[a .. a+n) (R14). -/
def Memory.readBytes (m : Memory) (a n : Nat) : List Byte := (List.range n).map fun i => m.read (a + i)

/-- All 200 bytes of S, in address order. -/
def Memory.bytes (m : Memory) : List Byte := m.readBytes 0 200

/-- The cells, from address a on, that hold a byte string. -/
def Memory.cellsFrom : Nat → List Byte → Memory
  | _, [] => []
  | a, v :: p => if v = 0x00 then Memory.cellsFrom (a + 1) p else (a, v) :: Memory.cellsFrom (a + 1) p

/-- The state space that holds a byte string at addresses 0, 1, 2, ... -/
def Memory.ofBytes (bs : List Byte) : Memory := Memory.cellsFrom 0 bs

/-- S <- KeccakF(S) (R14, 40_permutation.md R100). Both cases are the one formula `Memory.permute_eq` gives; the split on
the list keeps Lean from unfolding KeccakF on a state space that is only a variable. -/
def Memory.permute (m : Memory) : Memory :=
  match m with
  | [] => Memory.ofBytes (keccakF (Memory.bytes []))
  | c :: cs => Memory.ofBytes (keccakF (Memory.bytes (c :: cs)))

/-- The canonical form, from address `lo` on: addresses rise strictly, are below 200, and no listed byte is 0x00. -/
def Memory.wfFrom : Nat → Memory → Bool
  | _, [] => true
  | lo, (a, v) :: m =>
    decide (lo ≤ a) && decide (a < 200) && decide (v ≠ 0x00) && Memory.wfFrom (a + 1) m

/-- The canonical form of the state space: equal contents are equal lists, and only addresses 0..199 exist (R50). -/
def Memory.wf (m : Memory) : Bool := Memory.wfFrom 0 m

/-! Operations on the engine. -/

/-- S[a] <- S[a] ^ v in the engine's state. -/
def State.xorByte (s : State) (a : Nat) (v : Byte) : State := { s with mem := s.mem.xorByte a v }

/-- Permute() (R14). -/
def State.permute (s : State) : State := { s with mem := s.mem.permute }

/-- The common body of INIT and InitK: S zeroed, the profile bound, the counters cleared, PHASE ABSORBING; ERR is not
written (43_hash_instance.md R160, R163). -/
def State.newInstance (s : State) (rate suffix outlen : Byte) : State :=
  { s with
    mem := [], rate := rate, suffix := suffix, outlen := outlen,
    pos := 0, sqzPos := 0, outCnt := 0, phase := .absorbing }

/-- A command succeeds: it emits 0x00, then its data (60_exceptions.md R201), and the frame index advances by one
(10_state.md R22). -/
def State.succeed (s : State) (data : List Byte) : State :=
  { s with resp := s.resp ++ 0x00 :: data, k := s.k + 1 }

/-- Taking an error, `raise Error(c)` (60_exceptions.md R203): ERR and the fault record take the code if they hold
none, the code alone is emitted, nothing else changes, and the engine goes on to the next frame. The payload has left
the channel already (R203(a); `fetch`). -/
def State.raise (s : State) (c : ErrorCode) : State :=
  { s with
    err := stickyErr s.err c, faultRecord := stickyFault s.faultRecord c,
    resp := s.resp ++ [codeByte c], k := s.k + 1 }

/-- Reset, taken at a frame boundary: the state of 70_reset_and_hazards.md R230. The fault record is the run's, not the
engine's: "no later step clears" it (60_exceptions.md R208; notes/assumptions/9.md). -/
def State.takeReset (s : State) : State := { State.reset with faultRecord := s.faultRecord }

end Sys2Proof.Machine
end

