-- ==== Sys2Proof/Machine/Adapter.lean ====
section
/-! DEFINITION. The state/permutation adapter's commands XOR_IN and EXTRACT (41_adapter.md). -/

namespace Sys2Proof.Machine

/-- XOR_IN: S[offset + i] <- S[offset + i] ^ P[i] (R131), OutOfRange if offset + len > 200 (R130). -/
def execXorIn (offset : Byte) (p : List Byte) (s : State) : Host.Outcome State Fault Refusal :=
  match windowCheck offset p.length with
  | some c => .next (s.raise c)
  | none => .next ({ s with mem := s.mem.xorBytes offset.toNat p }.succeed [])

/-- EXTRACT: emits S[offset .. offset + len) and changes no state (R133). -/
def execExtract (offset len : Byte) (s : State) : Host.Outcome State Fault Refusal :=
  match windowCheck offset len.toNat with
  | some c => .next (s.raise c)
  | none => .next (s.succeed (s.mem.readBytes offset.toNat len.toNat))

end Sys2Proof.Machine
end

