-- ==== Sys2Proof/Machine/Control.lean ====
section
/-! DEFINITION. The control commands STATUS and CLRERR (45_control.md). -/

namespace Sys2Proof.Machine

/-- The nine register bytes of STATUS, in order (45_control.md R190). -/
def statusBytes (s : State) : List Byte :=
  [(phaseBits s.phase).zeroExtend 8, s.err, s.rate, s.suffix, s.outlen, s.pos, s.sqzPos,
   s.outCnt.extractLsb' 0 8, s.outCnt.extractLsb' 8 8]

/-- STATUS: read every control register; no state changes (R190). -/
def execStatus (s : State) : Host.Outcome State Fault Refusal := .next (s.succeed (statusBytes s))

/-- CLRERR: ERR <- 0x00 (R192). -/
def execClrErr (s : State) : Host.Outcome State Fault Refusal :=
  .next ({ s with err := 0x00 }.succeed [])

end Sys2Proof.Machine
end

