-- ==== Sys2Proof/Machine/Permutation.lean ====
section
/-! DEFINITION. The permutation engine's command PERMUTE (40_permutation.md R110). -/

namespace Sys2Proof.Machine

/-- PERMUTE: S <- KeccakF(S), in every phase (R110). -/
def execPermute (s : State) : Host.Outcome State Fault Refusal := .next (s.permute.succeed [])

end Sys2Proof.Machine
end

