-- ==== Sys2Proof/Config.lean ====
section
/-! DEFINITION. The OPEN parameters of the spec (00_scope.md R9; 92_eei_decisions.md D2, D3), fixed for one machine.
Each is a constant without a body, so whatever is proved holds for every value the spec allows
(notes/assumptions/1.md, notes/assumptions/2.md). The fixed parameters of R9 (200 bytes, 25 lanes, 24 rounds, 40 output
bytes) stand as literals where their rules use them. -/

namespace Sys2Proof.Config

/-- KSHAKE_RATE − 1. The type holds the whole of R9's constraint, 1 ≤ KSHAKE_RATE ≤ 120, and nothing more. -/
opaque kshakeRateLess1 : Fin 120

/-- KSHAKE_RATE, OPEN, an integer with 1 ≤ KSHAKE_RATE ≤ 120 (R9, R10). -/
def kshakeRate : Byte := BitVec.ofNat 8 (kshakeRateLess1.val + 1)

/-- KSHAKE_SUFFIX, OPEN, one byte (R9, R10). -/
opaque kshakeSuffix : Byte

/-- NUM_ENGINES − 1. -/
opaque moreEngines : Nat

/-- NUM_ENGINES, OPEN, at least 1 (R9; 60_exceptions.md R213). -/
def numEngines : Nat := moreEngines + 1

end Sys2Proof.Config
end

