-- ==== Sys2Proof/Machine/Sponge.lean ====
section
/-! DEFINITION. The sponge controller (42_sponge.md): the subroutines AbsorbBytes, PadAndSwitch and SqueezeBytes, and
the commands ABSORB, PAD and SQUEEZE. -/

namespace Sys2Proof.Machine

/-- One byte absorbed: XOR at POS, POS + 1, and Permute() with POS back to 0 when the window is full (R140). -/
def State.absorbByte (s : State) (v : Byte) : State :=
  if s.pos + 1 = s.rate then { (s.xorByte s.pos.toNat v).permute with pos := 0 }
  else { s.xorByte s.pos.toNat v with pos := s.pos + 1 }

/-- AbsorbBytes(P), "a left fold over bytes" (R140, R142). -/
def State.absorbBytes (s : State) (p : List Byte) : State := p.foldl State.absorbByte s

/-- PadAndSwitch() (R143). -/
def State.padAndSwitch (s : State) : State :=
  { ((s.xorByte s.pos.toNat s.suffix).xorByte (s.rate.toNat - 1) 0x80).permute with
    pos := 0, sqzPos := 0, outCnt := 0, phase := .squeezing }

/-- The state SqueezeByte reads from: permuted, with a fresh window, if the window is used up (R146, the lazy
permutation). -/
def State.squeezeReady (s : State) : State :=
  if s.sqzPos = s.rate then { s.permute with sqzPos := 0 } else s

/-- SqueezeByte(): the next byte of the squeeze stream, and the state after it (R146). -/
def State.squeezeByte (s : State) : Byte × State :=
  (s.squeezeReady.mem.read s.squeezeReady.sqzPos.toNat,
   { s.squeezeReady with sqzPos := s.squeezeReady.sqzPos + 1 })

/-- The loop of SqueezeBytes(n): n bytes in order, and the state after them (R146). -/
def State.squeezeLoop : Nat → State → List Byte × State
  | 0, s => ([], s)
  | n + 1, s =>
    (s.squeezeByte.1 :: (State.squeezeLoop n s.squeezeByte.2).1, (State.squeezeLoop n s.squeezeByte.2).2)

/-- OUT_CNT and PHASE after n bytes have been squeezed (R146). -/
def State.countSqueezed (s : State) (n : Nat) : State :=
  { s with
    outCnt := saturatingAdd s.outCnt n,
    phase := phaseAfterSqueeze s.phase (saturatingAdd s.outCnt n) s.outlen }

/-- SqueezeBytes(n): the loop, then OUT_CNT and PHASE (R146). -/
def State.squeezeBytes (s : State) (n : Nat) : List Byte × State :=
  ((State.squeezeLoop n s).1, (State.squeezeLoop n s).2.countSqueezed n)

/-- ABSORB (R141). An access outside addresses 0..199, which only illegal register values could ask for, stops
(notes/assumptions/7.md). -/
def execAbsorb (p : List Byte) (s : State) : Host.Outcome State Fault Refusal :=
  match absorbingCheck s.phase with
  | some c => .next (s.raise c)
  | none =>
    if absorbInState s.rate s.pos p.length then .next ((s.absorbBytes p).succeed [])
    else .fault .noSuchStateByte

/-- PAD (R144). -/
def execPad (s : State) : Host.Outcome State Fault Refusal :=
  match absorbingCheck s.phase with
  | some c => .next (s.raise c)
  | none =>
    if padInState s.rate s.pos then .next (s.padAndSwitch.succeed []) else .fault .noSuchStateByte

/-- SQUEEZE (R147). -/
def execSqueeze (n : BitVec 16) (s : State) : Host.Outcome State Fault Refusal :=
  match squeezingCheck s.phase with
  | some c => .next (s.raise c)
  | none =>
    if squeezeInState s.rate s.sqzPos n.toNat then
      .next ((s.squeezeBytes n.toNat).2.succeed (s.squeezeBytes n.toNat).1)
    else .fault .noSuchStateByte

end Sys2Proof.Machine
end

