-- ==== Sys2Proof/Machine/Instance.lean ====
section
/-! DEFINITION. The hash instance (43_hash_instance.md): INIT, INITK and FINAL. -/

namespace Sys2Proof.Machine

/-- INIT: a fresh instance with an explicit profile, in any phase; OutOfRange for a rate outside 1..200 (R160, R161). -/
def execInit (rate suffix outlen : Byte) (s : State) : Host.Outcome State Fault Refusal :=
  match rateCheck rate with
  | some c => .next (s.raise c)
  | none => .next ((s.newInstance rate suffix outlen).succeed [])

/-- InitK(): a fresh instance with the KSHAKE320 profile (R163). -/
def State.initK (s : State) : State := s.newInstance Config.kshakeRate Config.kshakeSuffix 40

/-- INITK (R163): it never fails. -/
def execInitK (s : State) : Host.Outcome State Fault Refusal := .next (s.initK.succeed [])

/-- FINAL: pad, squeeze OUTLEN bytes, done (R165). -/
def execFinal (s : State) : Host.Outcome State Fault Refusal :=
  match finalCheck s.phase with
  | some c => .next (s.raise c)
  | none =>
    if padInState s.rate s.pos && squeezeInState s.rate 0 s.outlen.toNat then
      .next ((s.padAndSwitch.squeezeBytes s.outlen.toNat).2.succeed
        (s.padAndSwitch.squeezeBytes s.outlen.toNat).1)
    else .fault .noSuchStateByte

end Sys2Proof.Machine
end

