-- ==== Sys2Proof/Machine/Wrapper.lean ====
section
/-! DEFINITION. The KSHAKE320 wrapper's command HASH (44_kshake320.md R180). -/

namespace Sys2Proof.Machine

/-- The instance a HASH has built and padded when it begins to squeeze: InitK, AbsorbBytes(P), PadAndSwitch (R180). -/
def State.hashPadded (s : State) (p : List Byte) : State := (s.initK.absorbBytes p).padAndSwitch

/-- HASH: legal in every phase, never fails (R180, R187). Its accesses are in bounds whatever KSHAKE_RATE is, since
1 ≤ KSHAKE_RATE ≤ 120, so none is checked (41_adapter.md R134). -/
def execHash (p : List Byte) (s : State) : Host.Outcome State Fault Refusal :=
  .next (((s.hashPadded p).squeezeBytes 40).2.succeed ((s.hashPadded p).squeezeBytes 40).1)

end Sys2Proof.Machine
end

