-- ==== Sys2Proof/Machine/Dispatch.lean ====
section
/-! DEFINITION. exec: one arm per command of the opcode map (30_encoding.md R72), in the table's order. -/

namespace Sys2Proof.Machine

def exec (i : Instr) (s : State) : Host.Outcome State Fault Refusal :=
  match i with
  | .status => Sys2Proof.Machine.execStatus s
  | .clrErr => Sys2Proof.Machine.execClrErr s
  | .init rate suffix outlen => Sys2Proof.Machine.execInit rate suffix outlen s
  | .initK => Sys2Proof.Machine.execInitK s
  | .absorb p => Sys2Proof.Machine.execAbsorb p s
  | .pad => Sys2Proof.Machine.execPad s
  | .squeeze n => Sys2Proof.Machine.execSqueeze n s
  | .final => Sys2Proof.Machine.execFinal s
  | .hash p => Sys2Proof.Machine.execHash p s
  | .xorIn offset p => Sys2Proof.Machine.execXorIn offset p s
  | .extract offset len => Sys2Proof.Machine.execExtract offset len s
  | .permute => Sys2Proof.Machine.execPermute s

end Sys2Proof.Machine
end

