-- ==== Sys2Proof/WellFormed.lean ====
section
/-! DEFINITION. Which commands have an encoding: a payload is no longer than its length field can say
(30_encoding.md R70, R73, R82). Every other operand is bounded by its type. -/

namespace Sys2Proof

/-- ABSORB and HASH have a 16-bit length field, XOR_IN an 8-bit one (R82: "n = length of the literal, 0..65535",
"0..255"). Operands that break offset + len ≤ 200 are well formed: "that is an execution error (OutOfRange), not an
encoding error" (R82). -/
def Instr.wellFormed : Instr → Bool
  | .absorb p => decide (p.length ≤ 65535)
  | .hash p => decide (p.length ≤ 65535)
  | .xorIn _ p => decide (p.length ≤ 255)
  | .status | .clrErr | .init _ _ _ | .initK | .pad | .squeeze _ | .final | .extract _ _ | .permute => true

end Sys2Proof
end

