-- ==== Sys2Proof/Decode.lean ====
section
/-! DEFINITION. The encoding of commands (30_encoding.md): the command word's fields, the length of a frame, the
decoder, total on any bytes, and the encoder. -/

namespace Sys2Proof

/-! The command word's fields (R15, R70). -/

/-- OP = W[31:24]. -/
def opField (w : Word) : Byte := w.extractLsb' 24 8

/-- A = W[23:16]. -/
def fieldA (w : Word) : Byte := w.extractLsb' 16 8

/-- B = W[15:8]. -/
def fieldB (w : Word) : Byte := w.extractLsb' 8 8

/-- C = W[7:0]. -/
def fieldC (w : Word) : Byte := w.extractLsb' 0 8

/-- L16 = W[23:8], A and B read together. -/
def fieldL16 (w : Word) : BitVec 16 := w.extractLsb' 8 16

/-- "Where a transport carries the command word as four bytes, it carries them most significant byte first, so the OP
byte comes first" (20_memory.md R51). -/
def wordBytes (w : Word) : List Byte := [opField w, fieldA w, fieldB w, fieldC w]

/-- The command word of its four bytes, most significant byte first (R51). -/
def wordOfBytes (b0 b1 b2 b3 : Byte) : Word := b0 ++ b1 ++ b2 ++ b3

/-- PayloadLen(W), "a function of OP and the length fields alone" (R76). -/
def payloadLen (w : Word) : Nat :=
  if opField w = 0x20 ∨ opField w = 0x30 then (fieldL16 w).toNat
  else if opField w = 0x40 then (fieldB w).toNat
  else 0

/-- A frame is a pair (W, P): the command word and the payload byte string (00_scope.md R15), "with |P| = PayloadLen(W)
by construction" (R76). -/
structure Frame where
  word : Word
  payload : List Byte
  whole : payload.length = payloadLen word
  deriving DecidableEq, Repr

/-- The frame of a word and a payload; `none` where the payload has not the length the word says (R76). -/
def Frame.ofParts (w : Word) (p : List Byte) : Option Frame :=
  if h : p.length = payloadLen w then some ⟨w, p, h⟩ else none

/-- A frame as it travels on the command channel: the word's four bytes, then the payload (R51, R75). -/
def Frame.bytes (f : Frame) : List Byte := wordBytes f.word ++ f.payload

/-! The opcode map (R72) and the formats (R71). -/

/-- The four formats of R71. -/
inductive Format where
  | n
  | p
  | l
  | w
  deriving DecidableEq, Repr

/-- The commands of the opcode map, by name (R72). -/
inductive Op where
  | status | clrErr | init | initK | absorb | pad | squeeze | final | hash | xorIn | extract | permute
  deriving DecidableEq, Repr

/-- The OP value of a command (R72). -/
def Op.code : Op → Byte
  | .status => 0x01
  | .clrErr => 0x02
  | .init => 0x10
  | .initK => 0x11
  | .absorb => 0x20
  | .pad => 0x21
  | .squeeze => 0x22
  | .final => 0x23
  | .hash => 0x30
  | .xorIn => 0x40
  | .extract => 0x41
  | .permute => 0x42

/-- The format of a command (R71, R72). -/
def Op.format : Op → Format
  | .status | .clrErr | .initK | .pad | .final | .permute => .n
  | .init => .p
  | .absorb | .squeeze | .hash => .l
  | .xorIn | .extract => .w

/-- The twelve commands, in the order of the opcode map. -/
def Op.all : List Op :=
  [.status, .clrErr, .init, .initK, .absorb, .pad, .squeeze, .final, .hash, .xorIn, .extract, .permute]

/-- "The only OP values that select a command are these twelve" (R72); `none` for the 244 illegal values (R78). -/
def opOfByte (b : Byte) : Option Op := Op.all.find? fun o => o.code == b

/-- The reserved field of a format (R77): "bits 23:0 for format N, and bits 7:0 for formats L and W. Format P has no
reserved bits." -/
def reservedField : Format → Word → BitVec 24
  | .n, w => w.extractLsb' 0 24
  | .p, _ => 0
  | .l, w => (fieldC w).zeroExtend 24
  | .w, w => (fieldC w).zeroExtend 24

/-- One row of spec/opcode_table.json: a word is the row's command iff its bits under `mask` are `match`. -/
structure OpRow where
  op : Op
  mnemonic : String
  pattern : Word
  mask : Word
  deriving DecidableEq, Repr

/-- spec/opcode_table.json, row by row. -/
def opcodeTable : List OpRow :=
  [⟨.status, "STATUS", 0x01000000, 0xFFFFFFFF⟩, ⟨.clrErr, "CLRERR", 0x02000000, 0xFFFFFFFF⟩,
   ⟨.init, "INIT", 0x10000000, 0xFF000000⟩, ⟨.initK, "INITK", 0x11000000, 0xFFFFFFFF⟩,
   ⟨.absorb, "ABSORB", 0x20000000, 0xFF0000FF⟩, ⟨.pad, "PAD", 0x21000000, 0xFFFFFFFF⟩] ++
  [⟨.squeeze, "SQUEEZE", 0x22000000, 0xFF0000FF⟩, ⟨.final, "FINAL", 0x23000000, 0xFFFFFFFF⟩,
   ⟨.hash, "HASH", 0x30000000, 0xFF0000FF⟩, ⟨.xorIn, "XOR_IN", 0x40000000, 0xFF0000FF⟩,
   ⟨.extract, "EXTRACT", 0x41000000, 0xFF0000FF⟩, ⟨.permute, "PERMUTE", 0x42000000, 0xFFFFFFFF⟩]

/-- A word falls under a row of the opcode table. -/
def OpRow.covers (r : OpRow) (w : Word) : Bool := w &&& r.mask == r.pattern

/-! The decoder (R80). -/

/-- Why a word is illegal. Both cases execute as a failing command with code 0x04 (R77, R78, R80). -/
inductive DecodeReject where
  /-- the OP value is none of R72's twelve (R78) -/
  | unassignedOpcode
  /-- the OP value is one of the twelve and a reserved field is not zero (R77) -/
  | reservedBits
  deriving DecidableEq, Repr

/-- The operands of a legal word, field by field (R73). -/
def operandsOf (o : Op) (w : Word) (p : List Byte) : Instr :=
  match o with
  | .status => .status
  | .clrErr => .clrErr
  | .init => .init (fieldA w) (fieldB w) (fieldC w)
  | .initK => .initK
  | .absorb => .absorb p
  | .pad => .pad
  | .squeeze => .squeeze (fieldL16 w)
  | .final => .final
  | .hash => .hash p
  | .xorIn => .xorIn (fieldA w) p
  | .extract => .extract (fieldA w) (fieldB w)
  | .permute => .permute

/-- R80's Decode(W), with the frame's payload handed to the commands that take one. "The same W decodes the same way in
every PHASE" (R81): the state is no argument. -/
def decodeWord (w : Word) (p : List Byte) : Except DecodeReject Instr :=
  match opOfByte (opField w) with
  | none => .error .unassignedOpcode
  | some o => if reservedField o.format w = 0 then .ok (operandsOf o w p) else .error .reservedBits

/-- What the decoder makes of the command channel's bytes. -/
inductive Decoded where
  /-- a whole frame with a legal word, and the bytes after it -/
  | instr (i : Instr) (rest : List Byte)
  /-- a whole frame with an illegal word, and the bytes after it: the payload is consumed all the same (R76, R77) -/
  | illegal (r : DecodeReject) (rest : List Byte)
  /-- the bytes are a proper beginning of a frame (R76: "A frame whose payload the host has not yet supplied in full
  has not arrived") -/
  | incomplete
  deriving DecidableEq, Repr

/-- A whole frame, split off: its word is decoded and its payload is gone from the channel "whether the command then
succeeds or fails, and whatever its reserved bits hold" (R76). -/
def decodeWhole (w : Word) (tail : List Byte) : Decoded :=
  match decodeWord w (tail.take (payloadLen w)) with
  | .ok i => .instr i (tail.drop (payloadLen w))
  | .error r => .illegal r (tail.drop (payloadLen w))

/-- The decoder on the bytes of the command channel, first byte first. Total: fewer bytes than a frame needs are
`incomplete`. -/
def decodeFrame : List Byte → Decoded
  | b0 :: b1 :: b2 :: b3 :: tail =>
    if tail.length < payloadLen (wordOfBytes b0 b1 b2 b3) then .incomplete
    else decodeWhole (wordOfBytes b0 b1 b2 b3) tail
  | _ => .incomplete

/-! The encoder (R71, R82). -/

/-- The command of an instruction. -/
def Instr.op : Instr → Op
  | .status => .status
  | .clrErr => .clrErr
  | .init _ _ _ => .init
  | .initK => .initK
  | .absorb _ => .absorb
  | .pad => .pad
  | .squeeze _ => .squeeze
  | .final => .final
  | .hash _ => .hash
  | .xorIn _ _ => .xorIn
  | .extract _ _ => .extract
  | .permute => .permute

/-- A word of format L: the opcode, a 16-bit length, and the reserved byte 0 (R71). -/
def lengthWord (op : Byte) (n : BitVec 16) : Word := op ++ n ++ 0x00#8

/-- The command word of an instruction (R71; R82's column "frame"). -/
def commandWord : Instr → Word
  | .status => 0x01000000
  | .clrErr => 0x02000000
  | .init rate suffix outlen => wordOfBytes 0x10 rate suffix outlen
  | .initK => 0x11000000
  | .absorb p => lengthWord 0x20 (BitVec.ofNat 16 p.length)
  | .pad => 0x21000000
  | .squeeze n => lengthWord 0x22 n
  | .final => 0x23000000
  | .hash p => lengthWord 0x30 (BitVec.ofNat 16 p.length)
  | .xorIn offset p => wordOfBytes 0x40 offset (BitVec.ofNat 8 p.length) 0x00
  | .extract offset len => wordOfBytes 0x41 offset len 0x00
  | .permute => 0x42000000

/-- The bytes of an instruction on the command channel. -/
def encode (i : Instr) : List Byte := wordBytes (commandWord i) ++ i.payload

/-- The frame of an instruction (R82); `none` where its payload is longer than its length field can say. -/
def frameOf (i : Instr) : Option Frame := Frame.ofParts (commandWord i) i.payload

/-! The host's numbering of a row's bits: bit 0 is the least significant bit of the command word, and the payload's
bytes count on from bit 32. -/

/-- The bytes, as the command channel carries them, of the frame whose bits are `w` (bits from `nbits` up are zero). -/
def tableWordBytes (nbits w : Nat) : List Byte :=
  wordBytes (BitVec.ofNat 32 (w % 2 ^ nbits)) ++
    (List.range (payloadLen (BitVec.ofNat 32 (w % 2 ^ nbits)))).map
      fun j => BitVec.ofNat 8 ((w % 2 ^ nbits) >>> (32 + 8 * j))

/-- The instruction the decoder reads from that frame, `none` where the word is illegal. -/
def decodeTableWord (nbits w : Nat) : Option Instr :=
  match decodeFrame (tableWordBytes nbits w) with
  | .instr i _ => some i
  | .illegal _ _ => none
  | .incomplete => none

end Sys2Proof
end

