-- ==== Sys2Proof/Machine/Fetch.lean ====
section
/-! DEFINITION. Taking the next frame from the command channel (30_encoding.md R75, R76), and the engine's waits and
reset at a frame boundary (70_reset_and_hazards.md R231, R240; 60_exceptions.md R215). -/

namespace Sys2Proof.Machine

/-- What the engine finds at a frame boundary. -/
inductive Fetched where
  /-- no frame pending and no reset: "With no frame pending it does nothing" (R215) -/
  | idle
  /-- reset acts, between two frames (R231) -/
  | reset (t : State)
  /-- the engine has no step (R240, R231) -/
  | stuck (f : Fault)
  /-- a frame with an illegal word; the state has its bytes taken from the channel (R76, R77, R78) -/
  | illegal (r : DecodeReject) (t : State)
  /-- a frame with a legal word; the state has its bytes taken from the channel (R76) -/
  | run (i : Instr) (t : State)
  deriving DecidableEq, Repr

/-- Whether bytes of the command channel are whole frames and nothing more, at most `fuel` of them (R76). -/
def wholeFrames : Nat → List Byte → Bool
  | _, [] => true
  | 0, _ :: _ => false
  | fuel + 1, b :: bs =>
    match decodeFrame (b :: bs) with
    | .instr _ rest => wholeFrames fuel rest
    | .illegal _ rest => wholeFrames fuel rest
    | .incomplete => false

/-- The channel holds no partial frame (70_reset_and_hazards.md R231, R235). A frame has at least four bytes, so there are
no more frames than bytes. -/
def noPartialFrame (cmd : List Byte) : Bool := wholeFrames cmd.length cmd

/-- Reset asserted at a frame boundary: it acts at once, frames still pending or not, and leaves the state of R230, whose
command channel is empty. "The model has no move" for it with response bytes unread or a frame partly sent (R231). -/
def fetchReset (s : State) : Fetched :=
  if s.resp.isEmpty then
    if noPartialFrame s.cmd then .reset s.takeReset else .stuck .resetWithinFrame
  else .stuck .resetWithResponseUnread

/-- With reset released: frames in arrival order (20_memory.md R55), each taken whole (R76), or nothing when none is
pending (60_exceptions.md R215). -/
def fetchCommand (s : State) : Fetched :=
  match s.cmd with
  | [] => .idle
  | b :: bs =>
    match decodeFrame (b :: bs) with
    | .instr i rest => .run i { s with cmd := rest }
    | .illegal r rest => .illegal r { s with cmd := rest }
    | .incomplete => .stuck .frameIncomplete

/-- The next thing the engine does. "The model's reset is a step available at every frame boundary" (R231), so it comes
before any pending frame (notes/assumptions/6.md). -/
def fetch (s : State) : Fetched := if s.resetLine then fetchReset s else fetchCommand s

/-- A frame's bytes put where `fetch` takes its next frame: at the head of the command channel, with reset released. -/
def State.placeNext (s : State) (bs : List Byte) : State :=
  { s with cmd := bs ++ s.cmd, resetLine := false }

end Sys2Proof.Machine
end

