-- ==== Sys2Proof/Machine/Step.lean ====
section
/-! DEFINITION. One step of the engine: what `fetch` finds at the frame boundary, carried out. -/

namespace Sys2Proof.Machine

/-- One reset, one command, or nothing when no frame is pending (R231; 20_memory.md R55; R215). An illegal word "is not
a refusal: the engine executes it as a failing command with code 0x04" (30_encoding.md R80). -/
def step (s : State) : Host.Outcome State Fault Refusal :=
  match fetch s with
  | .idle => .next s
  | .reset t => .next t
  | .stuck f => .fault f
  | .illegal _ t => .next (t.raise .illegalCommand)
  | .run i t => exec i t

/-- The frame whose bits are `w` placed where `step` takes its next frame (notes/assumptions/10.md). -/
def State.withFetchWord (s : State) (nbits w : Nat) : State := s.placeNext (tableWordBytes nbits w)

end Sys2Proof.Machine
end

