-- ==== Sys2Proof/Machine/Assembler.lean ====
section
/-! DEFINITION. The assembler syntax and the pseudo-instructions (30_encoding.md R82, R83). -/

namespace Sys2Proof.Machine

/-! Pseudo-instructions (R83). -/

/-- The pseudo-instructions, by the names of R83's table. -/
inductive Pseudo where
  | new (rate suffix outlen : Byte)
  | update (bytes : List Byte)
  | finalize
  | powHash (bytes : List Byte)
  | spongePad
  deriving DecidableEq, Repr

/-- "consecutive chunks of at most 65535 bytes, in order" (R83): at most `fuel` of them. DESIGN CHOICE: every chunk but the
last is a full 65535 bytes, where R83 leaves the sizes open (notes/assumptions/14.md). -/
def chunksFrom : Nat → List Byte → List (List Byte)
  | 0, _ => []
  | fuel + 1, bs =>
    if bs.length ≤ 65535 then [bs] else bs.take 65535 :: chunksFrom fuel (bs.drop 65535)

/-- UPDATE's chunks; "an empty literal gives one ABSORB x""" (R83). The sizes are the model's choice
(notes/assumptions/14.md). -/
def updateChunks (bs : List Byte) : List (List Byte) := chunksFrom (bs.length / 65535 + 1) bs

/-- UPDATE as commands (R83). -/
def updateInstrs (bs : List Byte) : List Instr := (updateChunks bs).map Instr.absorb

/-- "Each expands to the frames shown" (R83). -/
def expandPseudo : Pseudo → List Instr
  | .new rate suffix outlen => [.init rate suffix outlen]
  | .update bs => updateInstrs bs
  | .finalize => [.final]
  | .powHash bs =>
    if bs.length ≤ 65535 then [.hash bs] else .initK :: (updateInstrs bs ++ [.final])
  | .spongePad => [.pad]

/-! One line of assembly (R82), already split into its name and operands. -/

/-- An operand: a number, or a byte-string literal. -/
inductive AsmOperand where
  | num (n : Nat)
  | lit (bytes : List Byte)
  deriving DecidableEq, Repr

/-- A line: a name and its operands. -/
structure AsmLine where
  name : String
  operands : List AsmOperand
  deriving DecidableEq, Repr

/-- An 8-bit operand: "An assembler rejects an operand out of its field's range" (R82). -/
def asByte (n : Nat) : Option Byte := if n ≤ 255 then some (BitVec.ofNat 8 n) else none

/-- A 16-bit operand. -/
def asLength (n : Nat) : Option (BitVec 16) := if n ≤ 65535 then some (BitVec.ofNat 16 n) else none

/-- A command whose literal fits its length field (R82), as a list of one. -/
def fitting (i : Instr) : Option (List Instr) := if i.wellFormed then some [i] else none

/-- The lines without operands. -/
def assembleBare (name : String) : Option (List Instr) :=
  if name = "STATUS" then some [.status]
  else if name = "CLRERR" then some [.clrErr]
  else if name = "INITK" then some [.initK]
  else if name = "PAD" then some [.pad]
  else if name = "FINAL" then some [.final]
  else if name = "PERMUTE" then some [.permute]
  else if name = "FINALIZE" then some (expandPseudo .finalize)
  else if name = "SPONGE_PAD" then some (expandPseudo .spongePad)
  else none

/-- The lines with one literal. -/
def assembleLiteral (name : String) (bs : List Byte) : Option (List Instr) :=
  if name = "ABSORB" then fitting (.absorb bs)
  else if name = "HASH" then fitting (.hash bs)
  else if name = "UPDATE" then some (expandPseudo (.update bs))
  else if name = "POW_HASH" then some (expandPseudo (.powHash bs))
  else none

/-- The lines with three numbers, INIT and NEW. -/
def assembleProfile (name : String) (r s o : Nat) : Option (List Instr) :=
  match asByte r, asByte s, asByte o with
  | some rate, some suffix, some outlen =>
    if name = "INIT" then some [.init rate suffix outlen]
    else if name = "NEW" then some (expandPseudo (.new rate suffix outlen))
    else none
  | _, _, _ => none

/-- EXTRACT offset, len. It accepts operands that break offset + len ≤ 200 (R82). -/
def assembleExtract (name : String) (o l : Nat) : Option (List Instr) :=
  match asByte o, asByte l with
  | some offset, some len => if name = "EXTRACT" then some [.extract offset len] else none
  | _, _ => none

/-- XOR_IN offset, literal. -/
def assembleXorIn (o : Nat) (bs : List Byte) : Option (List Instr) :=
  match asByte o with
  | some offset => fitting (.xorIn offset bs)
  | none => none

/-- `.frame`: "the raw word W with the given payload, which must have PayloadLen(W) bytes" (R82). -/
def rawFrame (w : Nat) (bs : List Byte) : Option (List Frame) :=
  if w < 2 ^ 32 then (Frame.ofParts (BitVec.ofNat 32 w) bs).map fun f => [f] else none

/-- The frames of commands, in order. -/
def framesOf (is : List Instr) : Option (List Frame) := is.mapM frameOf

/-- A line's frames; `none` where the assembler rejects it (R82, R83). -/
def assembleLine (l : AsmLine) : Option (List Frame) :=
  match l.operands with
  | [] => (assembleBare l.name).bind framesOf
  | [.lit bs] => (assembleLiteral l.name bs).bind framesOf
  | [.num n] =>
    if l.name = "SQUEEZE" then (asLength n).bind fun len => framesOf [.squeeze len] else none
  | [.num n, .lit bs] =>
    if l.name = ".frame" then rawFrame n bs
    else if l.name = "XOR_IN" then (assembleXorIn n bs).bind framesOf
    else none
  | [.num a, .num b] => (assembleExtract l.name a b).bind framesOf
  | [.num a, .num b, .num c] => (assembleProfile l.name a b c).bind framesOf
  | _ => none

/-! The text of a line (R82): numbers decimal or `0x`-hex, literals `x"…"` with two hex digits a byte, `;` starts a
comment. Spaces and tabs stand between the name and its operands and around them (notes/assumptions/13.md). -/

/-- The value of a digit, lowercase or uppercase; 16 and more for any other character. -/
def digitValue (c : Char) : Nat :=
  if '0' ≤ c ∧ c ≤ '9' then c.toNat - '0'.toNat
  else if 'a' ≤ c ∧ c ≤ 'f' then c.toNat - 'a'.toNat + 10
  else if 'A' ≤ c ∧ c ≤ 'F' then c.toNat - 'A'.toNat + 10
  else 16

/-- Digits of a base, most significant first, onto a value already read. -/
def digitsOnto (base : Nat) : Nat → List Char → Option Nat
  | v, [] => some v
  | v, c :: cs => if digitValue c < base then digitsOnto base (v * base + digitValue c) cs else none

/-- A number of at least one digit. -/
def parseNumber : List Char → Option Nat
  | [] => none
  | ['0', 'x'] => none
  | '0' :: 'x' :: cs => digitsOnto 16 0 cs
  | c :: cs => digitsOnto 10 0 (c :: cs)

/-- The inside of a byte-string literal and its closing quote. -/
def parseHexBytes : List Char → Option (List Byte)
  | ['"'] => some []
  | a :: b :: cs =>
    if digitValue a < 16 ∧ digitValue b < 16 then
      (parseHexBytes cs).map (BitVec.ofNat 8 (16 * digitValue a + digitValue b) :: ·)
    else none
  | _ => none

/-- An operand without the blanks around it. -/
def parseOperand : List Char → Option AsmOperand
  | 'x' :: '"' :: cs => (parseHexBytes cs).map .lit
  | cs => (parseNumber cs).map .num

/-- A space or a tab. -/
def isBlank (c : Char) : Bool := c == ' ' || c == '\t'

/-- A text without the blanks at its two ends. -/
def trimBlanks (cs : List Char) : List Char :=
  ((cs.dropWhile isBlank).reverse.dropWhile isBlank).reverse

/-- A text split at its commas. -/
def splitCommas : List Char → List (List Char)
  | [] => [[]]
  | ',' :: cs => [] :: splitCommas cs
  | c :: cs =>
    match splitCommas cs with
    | [] => [[c]]
    | first :: rest => (c :: first) :: rest

/-- The operands of a line; no text is no operand. -/
def parseOperands (cs : List Char) : Option (List AsmOperand) :=
  if (trimBlanks cs).isEmpty then some []
  else (splitCommas cs).mapM fun part => parseOperand (trimBlanks part)

/-- A line without its comment and outer blanks. -/
def lineText (cs : List Char) : List Char := trimBlanks (cs.takeWhile fun c => c != ';')

/-- The frames of one line of text, in order; a blank line has none. -/
def assembleText (cs : List Char) : Option (List Frame) :=
  if (lineText cs).isEmpty then some []
  else
    match parseOperands ((lineText cs).dropWhile fun c => !isBlank c) with
    | none => none
    | some ops =>
      assembleLine ⟨String.ofList ((lineText cs).takeWhile fun c => !isBlank c), ops⟩

end Sys2Proof.Machine
end

