-- ==== Sys2Proof/Machine/SpongeFunction.lean ====
section
/-! DEFINITION. The sponge as a function on byte strings, without registers: Sponge(r, s, m, L) of 42_sponge.md R149, and
KSHAKE320(m) of 44_kshake320.md R182. The commands are stated against it. -/

namespace Sys2Proof.Machine

/-- T with B XORed into T[0..|B|). -/
def xorPrefix : List Byte → List Byte → List Byte
  | t :: T, b :: B => (t ^^^ b) :: xorPrefix T B
  | [], _ => []
  | t :: T, [] => t :: T

/-- "for each complete r-byte block Bk of m: T[0..r) <- T[0..r) ^ Bk; T <- KeccakF(T)", for the first n blocks (R149). -/
def absorbBlocks (r : Nat) : Nat → List Byte → List Byte → List Byte
  | 0, T, _ => T
  | n + 1, T, m => absorbBlocks r n (keccakF (xorPrefix T (m.take r))) (m.drop r)

/-- T after the complete blocks of m and the remaining |m| mod r bytes, before the padding (R149). -/
def spongeAbsorbed (r : Nat) (m : List Byte) : List Byte :=
  xorPrefix (absorbBlocks r (m.length / r) (List.replicate 200 0x00) m) (m.drop (m.length / r * r))

/-- "T[|R|] <- T[|R|] ^ s; T[r−1] <- T[r−1] ^ 0x80; T <- KeccakF(T)" (R149). -/
def spongePadded (r : Nat) (s : Byte) (m : List Byte) : List Byte :=
  keccakF (((spongeAbsorbed r m).modify (m.length % r) (· ^^^ s)).modify (r - 1) (· ^^^ 0x80))

/-- The first n windows of Z = T[0..r) ++ KeccakF(T)[0..r) ++ … (R146, R149). -/
def squeezeWindows (r : Nat) : Nat → List Byte → List Byte
  | 0, _ => []
  | n + 1, T => T.take r ++ squeezeWindows r n (keccakF T)

/-- Sponge(r, s, m, L) (R149). A window has at least one byte, so L windows hold the L bytes that are returned. -/
def sponge (r : Nat) (s : Byte) (m : List Byte) (L : Nat) : List Byte :=
  (squeezeWindows r L (spongePadded r s m)).take L

/-- KSHAKE320(m) := Sponge(KSHAKE_RATE, KSHAKE_SUFFIX, m, 40) (44_kshake320.md R182). -/
def kshake320 (m : List Byte) : List Byte := sponge Config.kshakeRate.toNat Config.kshakeSuffix m 40

end Sys2Proof.Machine
end

