-- ==== Sys2Proof/Machine/Conformance.lean ====
section
/-! DEFINITION. Conformance to KSHAKE320 (44_kshake320.md R185, R188; 95_test_vectors.md V60): "A model states conformance as
a hypothesis over the OPEN parameters, never as a theorem". The message is a parameter of it too (90_conflicts.md C2;
93_implementation_defined.md U13). -/

namespace Sys2Proof.Machine

/-- The message of the known-answer vector as the source prints it, 128 bytes (V60). -/
def katMessage : List Byte :=
  [0x01, 0x00, 0x00, 0x00, 0x00, 0x00, 0x00, 0x00, 0xCB, 0x43, 0xB0, 0xEC, 0x8E, 0xF4, 0x46, 0x4F] ++
  [0x3D, 0x04, 0x14, 0x93, 0x68, 0x92, 0x74, 0xEE, 0x53, 0x74, 0x15, 0x86, 0xAC, 0xF0, 0xAD, 0x0B] ++
  [0x94, 0xB0, 0xD0, 0x98, 0x69, 0x28, 0x16, 0x5F, 0xD9, 0x82, 0x3E, 0xDF, 0xF8, 0x00, 0x00, 0x00] ++
  [0x91, 0x7E, 0x5E, 0xE9, 0xF2, 0x77, 0xDA, 0x18, 0xCB, 0x60, 0xD7, 0xA3, 0xB3, 0xBF, 0x5C, 0xB3] ++
  [0xED, 0xF8, 0x2A, 0x55, 0x9F, 0x63, 0xDE, 0x9A, 0xB5, 0x68, 0x44, 0x05, 0xE3, 0x82, 0xB6, 0x92] ++
  [0x05, 0x13, 0x9B, 0x98, 0x3E, 0xA6, 0x8F, 0xB2, 0x00, 0x00, 0x00, 0x00, 0x00, 0x00, 0x00, 0x00] ++
  [0x00, 0x00, 0x00, 0x00, 0x00, 0x00, 0x00, 0x00, 0x00, 0x00, 0x00, 0x00, 0xFF, 0xFF, 0x00, 0x26] ++
  [0x17, 0x9C, 0xFB, 0x03, 0x43, 0xFF, 0x14, 0x00, 0x00, 0x00, 0x00, 0x00, 0x00, 0x00, 0x00, 0x00]

/-- The two readings of the message: the 128 bytes, or their first 80. "Which message §8's digest belongs to is left
undecided" (C2). -/
def katMessages : List (List Byte) := [katMessage, katMessage.take 80]

/-- The digest of the known-answer vector, byte 0 first (R185). -/
def katDigest : List Byte :=
  [0xDD, 0x9D, 0xB1, 0xD8, 0x4B, 0x0A, 0xBC, 0xD3, 0xFF, 0xC4, 0x67, 0x65, 0xCF, 0x16, 0x30, 0x0D, 0x13, 0xAD, 0xF3,
   0xC6] ++
  [0x1A, 0x72, 0x53, 0x4A, 0x0A, 0xEB, 0x2A, 0x8C, 0xA7, 0x19, 0xC1, 0xEE, 0xE7, 0xFE, 0x68, 0x7C, 0xBC, 0x00, 0x00,
   0x00]

/-- The conformance hypothesis over KSHAKE_RATE, KSHAKE_SUFFIX and the message (R188, C2): the digest of the message under
the profile is the known-answer digest. No theorem of the model says that any profile meets it. -/
def conformsUnder (rate suffix : Byte) (m : List Byte) : Prop := sponge rate.toNat suffix m 40 = katDigest

/-- The engine passes the conformance test on a message: "`HASH m` emits 00 followed by the digest of rule R185", in every
state (R188). -/
def hashConforms (m : List Byte) : Prop :=
  ∀ s : State, ∃ t, exec (.hash m) s = .next t ∧ t.resp = s.resp ++ 0x00 :: katDigest

/-- The engine conforms: it passes the test for the source's message, whichever reading that is (R188, C2). -/
def engineConforms : Prop := ∃ m ∈ katMessages, hashConforms m

end Sys2Proof.Machine
end

