-- ==== Sys2Proof/Machine/Cost.lean ====
section
/-! DEFINITION. The cost of a command in permutations (42_sponge.md R148, 70_reset_and_hazards.md R245). "This is the
only cost measure, and no rule of the model depends on it", so it is counted beside the machine: each loop is written
again with a count of its Permute() calls. -/

namespace Sys2Proof.Machine

/-- One absorbed byte, with the calls of Permute() so far (R140). -/
def absorbByteCounted (c : State × Nat) (v : Byte) : State × Nat :=
  if c.1.pos + 1 = c.1.rate then ({ (c.1.xorByte c.1.pos.toNat v).permute with pos := 0 }, c.2 + 1)
  else ({ c.1.xorByte c.1.pos.toNat v with pos := c.1.pos + 1 }, c.2)

/-- AbsorbBytes(P) with its calls of Permute() (R140). -/
def absorbCounted (s : State) (p : List Byte) : State × Nat := p.foldl absorbByteCounted (s, 0)

/-- One squeezed byte with its calls of Permute() (R146). -/
def squeezeReadyCounted (s : State) : State × Nat :=
  if s.sqzPos = s.rate then ({ s.permute with sqzPos := 0 }, 1) else (s, 0)

/-- The loop of SqueezeBytes(n) with its calls of Permute() (R146). -/
def squeezeCounted : Nat → State → (List Byte × State) × Nat
  | 0, s => (([], s), 0)
  | n + 1, s =>
    let r := squeezeReadyCounted s
    let t := squeezeCounted n { r.1 with sqzPos := r.1.sqzPos + 1 }
    ((r.1.mem.read r.1.sqzPos.toNat :: t.1.1, t.1.2), r.2 + t.2)

/-- The calls of Permute() a command makes in a state; a failing command makes none (R245). PadAndSwitch makes
exactly one (R143). -/
def permutationsOf (i : Instr) (s : State) : Nat :=
  match i with
  | .absorb p => if absorbingCheck s.phase = none then (absorbCounted s p).2 else 0
  | .pad => if absorbingCheck s.phase = none then 1 else 0
  | .squeeze n => if squeezingCheck s.phase = none then (squeezeCounted n.toNat s).2 else 0
  | .final =>
    if finalCheck s.phase = none then 1 + (squeezeCounted s.outlen.toNat s.padAndSwitch).2 else 0
  | .hash p => (absorbCounted s.initK p).2 + 1 + (squeezeCounted 40 (s.hashPadded p)).2
  | .permute => 1
  | .status | .clrErr | .init _ _ _ | .initK | .xorIn _ _ | .extract _ _ => 0

/-- P(0) = 0 and P(L) = ⌊(L − 1) / r⌋ for L ≥ 1 (R148). -/
def squeezePerms (r L : Nat) : Nat := if L = 0 then 0 else (L - 1) / r

/-- The table of R245, column "permutations". -/
def costTable (i : Instr) (s : State) : Nat :=
  match i with
  | .absorb p => if s.phase = .absorbing then (s.pos.toNat + p.length) / s.rate.toNat else 0
  | .pad => if s.phase = .absorbing then 1 else 0
  | .squeeze n =>
    if s.phase = .squeezing ∨ s.phase = .done then
      if n = 0 then 0 else (s.sqzPos.toNat + n.toNat - 1) / s.rate.toNat
    else 0
  | .final => if s.phase = .absorbing then 1 + squeezePerms s.rate.toNat s.outlen.toNat else 0
  | .hash p => p.length / Config.kshakeRate.toNat + 1 + squeezePerms Config.kshakeRate.toNat 40
  | .permute => 1
  | .status | .clrErr | .init _ _ _ | .initK | .xorIn _ _ | .extract _ _ => 0

end Sys2Proof.Machine
end

