-- ==== Sys2Proof/Machine/Formatter.lean ====
section
/-! DEFINITION. The output formatter: the host's two readings of a 40-byte digest (44_kshake320.md R183, R184). The
engine does not compute them (92_eei_decisions.md D22). -/

namespace Sys2Proof.Machine

/-- d[i] of a digest. -/
def digestByte (d : List Byte) (i : Nat) : Nat := (d.getD i 0).toNat

/-- w_i = d[4i] + d[4i+1]·2^8 + d[4i+2]·2^16 + d[4i+3]·2^24 (R183). -/
def digestWord (d : List Byte) (i : Nat) : Nat :=
  digestByte d (4 * i) + digestByte d (4 * i + 1) * 2 ^ 8 + digestByte d (4 * i + 2) * 2 ^ 16
    + digestByte d (4 * i + 3) * 2 ^ 24

/-- DigestInt(d) = Σ_{i=0..9} w_i · 2^(32·i) (R183). -/
def digestInt (d : List Byte) : Nat := ((List.range 10).map fun i => digestWord d i * 2 ^ (32 * i)).sum

/-- The digits "0123456789abcdef" (R184). -/
def hexDigits : List Char :=
  ['0', '1', '2', '3', '4', '5', '6', '7', '8', '9', 'a', 'b', 'c', 'd', 'e', 'f']

/-- The digit of a value below 16. -/
def hexDigit (n : Nat) : Char := hexDigits.getD (n % 16) '0'

/-- hex2(b), most significant nibble first (R184). -/
def hex2 (b : Byte) : List Char := [hexDigit (b >>> 4).toNat, hexDigit (b &&& 0xF).toNat]

/-- DisplayHex(d) = hex2(d[39]) ++ hex2(d[38]) ++ … ++ hex2(d[0]) (R184). -/
def displayHex (d : List Byte) : List Char := d.reverse.flatMap hex2

/-- A number in lowercase hexadecimal, left-padded with '0' to a number of digits (R184's other form). -/
def hexPadded : Nat → Nat → List Char
  | 0, _ => []
  | w + 1, n => hexPadded w (n / 16) ++ [hexDigit n]

end Sys2Proof.Machine
end

