-- ==== Sys2Proof/Machine/KeccakDerivation.lean ====
section
/-! DEFINITION. The derivations of the two tables, the spec's cross-checks (40_permutation.md R108, R109). "Rule R107's
table is normative" and "Rule R104's table is normative": the machine reads the tables, not these. -/

namespace Sys2Proof.Machine

/-- One step of the LFSR of R108: R << 1, then ^ 0x171 if bit 8 came out (x^8 + x^6 + x^5 + x^4 + 1). -/
def lfsrStep (r : Nat) : Nat := if (r <<< 1) &&& 0x100 ≠ 0 then (r <<< 1) ^^^ 0x171 else r <<< 1

/-- The register after n steps from 0x01. -/
def lfsr : Nat → Nat
  | 0 => 0x01
  | n + 1 => lfsrStep (lfsr n)

/-- rc(t) (R108). -/
def rcBit (t : Nat) : Nat := if t % 255 = 0 then 1 else lfsr (t % 255) &&& 1

/-- RC[i] = Σ_{j=0..6} rc(j + 7·i) · 2^(2^j − 1) (R108). -/
def derivedRoundConstant (i : Nat) : Nat :=
  ((List.range 7).map fun j => rcBit (j + 7 * i) * 2 ^ (2 ^ j - 1)).sum

/-- The walk of R109: (x, y) after t moves (x, y) <- (y, (2x + 3y) mod 5) from (1, 0). -/
def rhoWalk : Nat → Nat × Nat
  | 0 => (1, 0)
  | t + 1 => ((rhoWalk t).2, (2 * (rhoWalk t).1 + 3 * (rhoWalk t).2) % 5)

/-- The offset R109 gives at move t: ((t+1)(t+2)/2) mod 64. -/
def derivedOffset (t : Nat) : Nat := (t + 1) * (t + 2) / 2 % 64

end Sys2Proof.Machine
end

