-- ==== Sys2Proof/Machine/Platform.lean ====
section
/-! DEFINITION. A platform of NUM_ENGINES engines, each with its own state, channels and reset
(10_state.md R39; 60_exceptions.md R213; 20_memory.md R58). -/

namespace Sys2Proof.Machine

/-- The engines of a platform. They share nothing, so a platform is their states. -/
abbrev Platform := List State

/-- Every engine in its reset state (R213: "each comes out of reset on its own"). -/
def Platform.reset : Platform := List.replicate Config.numEngines State.reset

/-- One engine's turn: its step, or nothing where it has none (R240(a): a stuck engine has no step). -/
def State.turn (s : State) : State :=
  match step s with
  | .next t => t
  | .fault _ => s
  | .refused _ => s

/-- Engine e takes a turn; the others are not concerned. -/
def Platform.turn (p : Platform) (e : Nat) : Platform := p.modify e State.turn

/-- The engines take turns in the order of a schedule, any interleaving (R58). -/
def Platform.run (p : Platform) (schedule : List Nat) : Platform := schedule.foldl Platform.turn p

/-- n turns of one engine on its own. -/
def State.turns : Nat → State → State
  | 0, s => s
  | n + 1, s => State.turns n s.turn

end Sys2Proof.Machine
end

