-- ==== Sys2Proof/Machine/HostPort.lean ====
section
/-! DEFINITION. What the host can do to one engine (60_exceptions.md R216). -/

namespace Sys2Proof.Machine

/-- Bytes arrive at the end of the command channel (30_encoding.md R75). A frame's bytes may come in parts: "The engine waits
for the missing bytes" (R76). -/
def State.sendBytes (s : State) (bs : List Byte) : State := { s with cmd := s.cmd ++ bs }

/-- The host issues a command: "one frame: W, then exactly PayloadLen(W) bytes" (R216). -/
def State.send (s : State) (f : Frame) : State := s.sendBytes f.bytes

/-- The host reads the oldest n response bytes, "at any later time" (R216). -/
def State.readResponse (s : State) (n : Nat) : List Byte × State :=
  (s.resp.take n, { s with resp := s.resp.drop n })

/-- The host asserts reset, "at any frame boundary" (R216, 70_reset_and_hazards.md R231). -/
def State.assertReset (s : State) : State := { s with resetLine := true }

end Sys2Proof.Machine
end

