-- ==== Sys2Proof/Machine/Run.lean ====
section
/-! DEFINITION. A run and its observation (70_reset_and_hazards.md R236). -/

namespace Sys2Proof.Machine

/-- An element of a run: a frame, or a reset placed between two frames (R236). -/
inductive HostMove where
  | frame (f : Frame)
  | reset
  deriving DecidableEq, Repr

/-- A run under way: the engine, and the response bytes the host has read off the channel. -/
structure RunState where
  engine : State
  collected : List Byte
  deriving DecidableEq, Repr

/-- Before a reset the host reads every response byte (R231: it never asserts reset "while response bytes are
unread"). -/
def RunState.readAll (r : RunState) : RunState where
  engine := (r.engine.readResponse r.engine.resp.length).2
  collected := r.collected ++ (r.engine.readResponse r.engine.resp.length).1

/-- The step's outcome, with the host's record kept. -/
def RunState.after (r : RunState) (o : Host.Outcome State Fault Refusal) :
    Host.Outcome RunState Fault Refusal :=
  match o with
  | .next t => .next { r with engine := t }
  | .fault f => .fault f
  | .refused x => .refused x

/-- One element of the run: a frame is sent and its command completes; a reset is asserted and acts (R236). DESIGN CHOICE: an
element is one step of the engine, so from a start state with whole frames pending or reset asserted, of which R236 does not
speak, the step takes the oldest pending frame or the reset, not the frame given (notes/assumptions/15.md). -/
def RunState.move (r : RunState) : HostMove → Host.Outcome RunState Fault Refusal
  | .frame f => r.after (step (r.engine.send f))
  | .reset => r.readAll.after (step r.readAll.engine.assertReset)

/-- The elements of a run in order; it stops where the engine has no step. -/
def RunState.run : List HostMove → RunState → Host.Outcome RunState Fault Refusal
  | [], r => .next r
  | m :: ms, r =>
    match r.move m with
    | .next r' => RunState.run ms r'
    | .fault f => .fault f
    | .refused x => .refused x

/-- Decoded commands executed one after another, in order (20_memory.md R55, R58): a run seen behind the decoder. -/
def execAll : List Instr → State → Host.Outcome State Fault Refusal
  | [], s => .next s
  | i :: is, s =>
    match exec i s with
    | .next t => execAll is t
    | .fault f => .fault f
    | .refused x => .refused x

/-- S and the eight registers (10_state.md R21, R23): what R236 calls the final state, and what R235 asks a claim to
name. -/
structure Arch where
  bytes : List Byte
  phase : Phase
  err : Byte
  rate : Byte
  suffix : Byte
  outlen : Byte
  pos : Byte
  sqzPos : Byte
  outCnt : BitVec 16
  deriving DecidableEq, Repr

/-- The S and the eight registers of an engine. -/
def State.arch (s : State) : Arch where
  bytes := s.mem.bytes
  phase := s.phase
  err := s.err
  rate := s.rate
  suffix := s.suffix
  outlen := s.outlen
  pos := s.pos
  sqzPos := s.sqzPos
  outCnt := s.outCnt

/-- The observation of a run (R236): the response stream, "the final state, S and the eight registers", and the fault
record. -/
structure Observation where
  responses : List Byte
  final : Arch
  fault : Option ErrorCode
  deriving DecidableEq, Repr

/-- What is observed at the end of a run. DESIGN CHOICE: response bytes unread and a fault recorded at the start state count
as the run's own. R235 excludes such a start from claims, and R236 does not speak of it (notes/assumptions/16.md). -/
def RunState.observe (r : RunState) : Observation where
  responses := r.collected ++ r.engine.resp
  final := r.engine.arch
  fault := r.engine.faultRecord

/-- The observation of a run from a start state, "a function of the start state and the frames alone" (R236). -/
def State.observeRun (s : State) (ms : List HostMove) : Host.Outcome Observation Fault Refusal :=
  match RunState.run ms ⟨s, []⟩ with
  | .next r => .next r.observe
  | .fault f => .fault f
  | .refused x => .refused x

end Sys2Proof.Machine
end

