-- ==== Sys2Proof/Safety.lean ====
section
/-! DEFINITION. The terms claims use: the invariants of 10_state.md R32, the clean entry of 70_reset_and_hazards.md R235,
the effect of an error (60_exceptions.md R203), which error is reported (R202, R209), and what a command leaves alone. -/

namespace Sys2Proof.Machine

/-! Invariants (10_state.md R32). -/

/-- R32(1): in IDLE no instance is bound. -/
abbrev State.idleClear (s : State) : Prop :=
  s.phase = .idle →
    s.rate = 0 ∧ s.suffix = 0 ∧ s.outlen = 0 ∧ s.pos = 0 ∧ s.sqzPos = 0 ∧ s.outCnt = 0

/-- R32(2): outside IDLE, 1 ≤ RATE ≤ 200. -/
abbrev State.rateLegal (s : State) : Prop := s.phase ≠ .idle → 1 ≤ s.rate.toNat ∧ s.rate.toNat ≤ 200

/-- R32(3): in ABSORBING, POS < RATE, and nothing has been squeezed. -/
abbrev State.absorbLegal (s : State) : Prop :=
  s.phase = .absorbing → s.pos.toNat < s.rate.toNat ∧ s.sqzPos = 0 ∧ s.outCnt = 0

/-- R32(4): in SQUEEZING and DONE, POS = 0 and SQZ_POS ≤ RATE. -/
abbrev State.squeezeLegal (s : State) : Prop :=
  s.phase = .squeezing ∨ s.phase = .done → s.pos = 0 ∧ s.sqzPos.toNat ≤ s.rate.toNat

/-- R32(5): in SQUEEZING, OUT_CNT < OUTLEN or OUT_CNT = 0. -/
abbrev State.squeezeCount (s : State) : Prop :=
  s.phase = .squeezing → s.outCnt.toNat < s.outlen.toNat ∨ s.outCnt = 0

/-- R32(6): in DONE, OUT_CNT ≥ OUTLEN. -/
abbrev State.doneCount (s : State) : Prop := s.phase = .done → s.outlen.toNat ≤ s.outCnt.toNat

/-- R32(7): ERR is 0x00 or one of the four codes. -/
abbrev State.errLegal (s : State) : Prop := s.err.toNat ≤ 4

/-- A code in ERR is one the run has recorded (R203(c), R208). -/
abbrev State.errRecorded (s : State) : Prop := s.err ≠ 0x00 → s.faultRecord ≠ none

/-- The seven invariants of R32; that S is held in its canonical form over addresses 0..199; and that a code in ERR is
recorded. -/
abbrev State.Inv (s : State) : Prop :=
  s.mem.wf = true ∧ s.idleClear ∧ s.rateLegal ∧ s.absorbLegal ∧ s.squeezeLegal ∧ s.squeezeCount ∧
    s.doneCount ∧ s.errLegal ∧ s.errRecorded

/-- The entry premise of a claim about a run from a state that is not reset's (R235): no partial frame on the command
channel, an empty response channel, no fault recorded, "plus the values of S and of the eight registers that it assumes". Whole frames pending and an asserted reset line are
admitted, since R235 does not exclude them: what a run does from there is notes/assumptions/15.md. -/
abbrev State.entry (s : State) (a : Arch) : Prop :=
  noPartialFrame s.cmd = true ∧ s.resp = [] ∧ s.faultRecord = none ∧ s.arch = a

/-- The clean-entry premise of a claim about a run from reset (R235). -/
abbrev State.cleanEntry (s : State) : Prop := s = State.reset

/-! What a command leaves alone. -/

/-- Every byte of S reads as before. -/
def SameS (s t : State) : Prop := ∀ a, t.mem.read a = s.mem.read a

/-- RATE, SUFFIX and OUTLEN are as before. -/
def SameProfile (s t : State) : Prop := t.rate = s.rate ∧ t.suffix = s.suffix ∧ t.outlen = s.outlen

/-- POS, SQZ_POS and OUT_CNT are as before. -/
def SameCounters (s t : State) : Prop := t.pos = s.pos ∧ t.sqzPos = s.sqzPos ∧ t.outCnt = s.outCnt

/-- ERR and the fault record are as before. -/
def SameErrors (s t : State) : Prop := t.err = s.err ∧ t.faultRecord = s.faultRecord

/-- The command channel and the reset line are as before. -/
def SameInputs (s t : State) : Prop := t.cmd = s.cmd ∧ t.resetLine = s.resetLine

/-- PHASE and the six instance registers are as before. -/
def SameInstance (s t : State) : Prop := t.phase = s.phase ∧ SameProfile s t ∧ SameCounters s t

/-- A command has completed with these response bytes: they follow those already on the channel, and the frame index
has advanced by one (R201; 10_state.md R22). -/
def Answers (s t : State) (bytes : List Byte) : Prop := t.resp = s.resp ++ bytes ∧ t.k = s.k + 1

/-- The whole effect of an error with this code (R203(b), (c), (d)): S and the seven registers as before, ERR takes the
code if it holds 0x00, and the code alone is emitted. The fault record takes the code if the run has none (R208). -/
def Failed (s t : State) (code : Byte) : Prop :=
  SameS s t ∧ SameInstance s t ∧ SameInputs s t ∧ Answers s t [code] ∧
    (s.err = 0x00 → t.err = code) ∧ (s.err ≠ 0x00 → t.err = s.err) ∧
    (s.faultRecord = none → (t.faultRecord.map codeByte) = some code) ∧
    (s.faultRecord ≠ none → t.faultRecord = s.faultRecord)

/-! Which code a command answers, and with how much data. -/

/-- The response code of a decoded command in a state, from the tables of R202 and R209: 0x00 where no check fails. -/
def responseCode (i : Instr) (s : State) : Byte :=
  match i with
  | .status | .clrErr | .initK | .hash _ | .permute => 0x00
  | .init rate _ _ => if 1 ≤ rate.toNat ∧ rate.toNat ≤ 200 then 0x00 else 0x01
  | .absorb _ | .pad => if s.phase = .absorbing then 0x00 else 0x02
  | .squeeze _ => if s.phase = .idle ∨ s.phase = .absorbing then 0x02 else 0x00
  | .final => if s.phase = .idle then 0x02 else if s.phase = .absorbing then 0x00 else 0x03
  | .xorIn offset p => if offset.toNat + p.length ≤ 200 then 0x00 else 0x01
  | .extract offset len => if offset.toNat + len.toNat ≤ 200 then 0x00 else 0x01

/-- The data bytes a successful command emits after its code (30_encoding.md R72). -/
def dataLength (i : Instr) (s : State) : Nat :=
  match i with
  | .status => 9
  | .squeeze n => n.toNat
  | .final => s.outlen.toNat
  | .hash _ => 40
  | .extract _ len => len.toNat
  | .clrErr | .init _ _ _ | .initK | .absorb _ | .pad | .xorIn _ _ | .permute => 0

end Sys2Proof.Machine
end

