-- ==== Sys2Proof/Certificates/Slice0/Obligations.lean ====
section
/-! DEFINITION. The statements for the provers, from the spec's numbered rules: the encoding, what each command does and
leaves alone, its errors, the engine's step, its invariants, the sponge function, the permutation, the host's readings. -/

open Sys2Proof Sys2Proof.Machine

/-! The encoding (30_encoding.md). -/

/-- The words of R84, and one of every other command, decode to the commands they stand for. -/
def Obligations.DecodeExampleWords : Prop :=
  decodeFrame [0x10, 0x88, 0x1F, 0x20] = .instr (.init 136 0x1F 32) [] ∧
  decodeFrame [0x10, 0x78, 0x1F, 0x28] = .instr (.init 120 0x1F 40) [] ∧
  decodeFrame [0x20, 0x00, 0x03, 0x00, 0x61, 0x62, 0x63] = .instr (.absorb [0x61, 0x62, 0x63]) [] ∧
  decodeFrame [0x22, 0x00, 0xC8, 0x00] = .instr (.squeeze 200) [] ∧
  decodeFrame [0x22, 0x01, 0x2C, 0x00] = .instr (.squeeze 300) [] ∧
  decodeFrame [0x30, 0x00, 0x00, 0x00] = .instr (.hash []) [] ∧
  decodeFrame ([0x30, 0x00, 0x50, 0x00] ++ List.replicate 80 0x5A) =
    .instr (.hash (List.replicate 80 0x5A)) [] ∧
  decodeFrame ([0x30, 0x00, 0x80, 0x00] ++ List.replicate 128 0xA5) =
    .instr (.hash (List.replicate 128 0xA5)) [] ∧
  decodeFrame [0x40, 0x10, 0x01, 0x00, 0xFF] = .instr (.xorIn 16 [0xFF]) [] ∧
  decodeFrame [0x41, 0x00, 0xC8, 0x00] = .instr (.extract 0 200) [] ∧
  decodeFrame [0x41, 0xC7, 0x02, 0x00] = .instr (.extract 199 2) [] ∧
  decodeFrame [0x21, 0x00, 0x00, 0x01] = .illegal .reservedBits [] ∧
  decodeFrame [0x20, 0x00, 0x03, 0x01, 0x00, 0x00, 0x00, 0x01] = .illegal .reservedBits [0x01] ∧
  decodeFrame [0x00, 0x00, 0x00, 0x00] = .illegal .unassignedOpcode [] ∧
  decodeFrame [0x01, 0x00, 0x00, 0x00] = .instr .status [] ∧
  decodeFrame [0x02, 0x00, 0x00, 0x00] = .instr .clrErr [] ∧
  decodeFrame [0x11, 0x00, 0x00, 0x00] = .instr .initK [] ∧
  decodeFrame [0x21, 0x00, 0x00, 0x00] = .instr .pad [] ∧
  decodeFrame [0x23, 0x00, 0x00, 0x00] = .instr .final [] ∧
  decodeFrame [0x42, 0x00, 0x00, 0x00] = .instr .permute []

/-- Decode and encode agree: whatever follows it on the channel, the frame of a well-formed command decodes to that
command with every operand, and what follows is left (R71, R72, R73, R76, R82). -/
def Obligations.EncodeThenDecode : Prop :=
  ∀ (i : Instr) (rest : List Byte), i.wellFormed = true → decodeFrame (encode i ++ rest) = .instr i rest

/-- The other direction: bytes that decode to a command are exactly that command's frame, and the command is well formed.
No two frames stand for one command. -/
def Obligations.DecodeThenEncode : Prop :=
  ∀ (bs : List Byte) (i : Instr) (rest : List Byte),
    decodeFrame bs = .instr i rest → i.wellFormed = true ∧ bs = encode i ++ rest

/-- A word is legal exactly when a row of the opcode table covers it, that row is the command's, and no two rows cover one
word (R72, R80). -/
def Obligations.LegalWordsAreTheTable : Prop :=
  (∀ (w : Word) (p : List Byte),
    (∀ i, decodeWord w p = .ok i → ∃ r ∈ opcodeTable, r.covers w = true ∧ r.op = i.op) ∧
    (∀ r ∈ opcodeTable, r.covers w = true → ∃ i, decodeWord w p = .ok i ∧ i.op = r.op)) ∧
  (∀ r ∈ opcodeTable, ∀ r' ∈ opcodeTable, ∀ w : Word,
    r.covers w = true → r'.covers w = true → r = r')

/-- R78: the 244 OP values outside the map are illegal. A word with one has no payload, fails with 0x04 and has no other
effect, whatever bits 23:0 hold; the all-zero word is one of them. -/
def Obligations.UnassignedOpcodesFail : Prop :=
  (∀ b : Byte, opOfByte b = none ↔
    b.toNat = 0x00 ∨ (0x03 ≤ b.toNat ∧ b.toNat ≤ 0x0F) ∨ (0x12 ≤ b.toNat ∧ b.toNat ≤ 0x1F) ∨
    (0x24 ≤ b.toNat ∧ b.toNat ≤ 0x2F) ∨ (0x31 ≤ b.toNat ∧ b.toNat ≤ 0x3F) ∨
    (0x43 ≤ b.toNat ∧ b.toNat ≤ 0xFF)) ∧
  ((List.range 256).filter fun n => opOfByte (BitVec.ofNat 8 n) = none).length = 244 ∧
  (∀ (s : State) (b0 b1 b2 b3 : Byte) (tail : List Byte), opOfByte b0 = none →
    s.resetLine = false → s.cmd = b0 :: b1 :: b2 :: b3 :: tail →
    ∃ t, step s = .next t ∧ Failed { s with cmd := tail } t 0x04) ∧
  opOfByte 0x00 = none

/-- R77: a word of the map with a non-zero reserved field (bits 23:0 for format N, bits 7:0 for formats L and W) consumes
its payload, then fails with 0x04 and has no other effect; format P has no reserved bits. -/
def Obligations.ReservedBitsFail : Prop :=
  (∀ (s : State) (w : Word) (payload tail : List Byte),
    ((w.extractLsb' 24 8 ∈ [0x01#8, 0x02#8, 0x11#8, 0x21#8, 0x23#8, 0x42#8] ∧ w.extractLsb' 0 24 ≠ 0) ∨
      (w.extractLsb' 24 8 ∈ [0x20#8, 0x22#8, 0x30#8, 0x40#8, 0x41#8] ∧ w.extractLsb' 0 8 ≠ 0)) →
    payload.length = payloadLen w → s.resetLine = false → s.cmd = wordBytes w ++ payload ++ tail →
    ∃ t, step s = .next t ∧ Failed { s with cmd := tail } t 0x04) ∧
  (∀ (w : Word) (p : List Byte), w.extractLsb' 24 8 = 0x10 →
    decodeWord w p = .ok (.init (w.extractLsb' 16 8) (w.extractLsb' 8 8) (w.extractLsb' 0 8)))

/-- R76: the payload's length is a function of OP and the length fields alone. Until it has all arrived the engine has no
step; then it is consumed in full, whether the command succeeds or fails and whatever its reserved bits hold. Every frame
the model can represent has exactly that many payload bytes, and every well-formed command has such a frame. -/
def Obligations.PayloadIsConsumedWhole : Prop :=
  (∀ (s : State) (w : Word) (tail : List Byte) (n : Nat),
    n = (if w.extractLsb' 24 8 = 0x20#8 ∨ w.extractLsb' 24 8 = 0x30#8 then (w.extractLsb' 8 16).toNat
         else if w.extractLsb' 24 8 = 0x40#8 then (w.extractLsb' 8 8).toNat else 0) →
    s.resetLine = false → s.cmd = wordBytes w ++ tail →
    (tail.length < n → step s = .fault .frameIncomplete) ∧
    (n ≤ tail.length → ∀ t, step s = .next t → t.cmd = tail.drop n)) ∧
  (∀ f : Frame, f.payload.length = payloadLen f.word) ∧
  (∀ i : Instr, i.wellFormed = true → ∃ f, frameOf i = some f ∧ f.bytes = encode i)

/-- R83: UPDATE is ABSORBs of consecutive chunks of at most 65535 bytes, in order, and of at least one chunk. -/
def Obligations.UpdateChunksTheLiteral : Prop :=
  ∀ bs : List Byte,
    (updateChunks bs).flatten = bs ∧ updateChunks bs ≠ [] ∧
    (∀ c ∈ updateChunks bs, c.length ≤ 65535) ∧
    expandPseudo (.update bs) = (updateChunks bs).map Instr.absorb

/-! One step of the engine. -/

/-- With reset released, when the channel's bytes decode to a command, step is exec of that command on the state with the
frame taken off the channel. -/
def Obligations.StepRunsDecodedCommand : Prop :=
  ∀ (s : State) (i : Instr) (rest : List Byte),
    s.resetLine = false → decodeFrame s.cmd = .instr i rest → step s = exec i { s with cmd := rest }

/-- R215: with no frame pending and no reset the engine does nothing and keeps all its state. R231, R216, with the model's
choices of notes/assumptions/6.md and 9.md: at every frame boundary, whole frames pending or not, an asserted reset acts and
sets every field to the reset state but the run's fault record; it has no move while response bytes are unread or a frame is
partly sent. -/
def Obligations.EngineWaitsOrResets : Prop :=
  ∀ s : State,
    (s.resetLine = false → s.cmd = [] → step s = .next s) ∧
    (s.resetLine = true → s.resp = [] → ∀ fs : List Frame, s.cmd = (fs.map Frame.bytes).flatten →
      step s = .next { State.reset with faultRecord := s.faultRecord }) ∧
    (s.resetLine = true → s.resp ≠ [] → step s = .fault .resetWithResponseUnread) ∧
    (s.resetLine = true → s.resp = [] → (∀ fs : List Frame, s.cmd ≠ (fs.map Frame.bytes).flatten) →
      step s = .fault .resetWithinFrame)

/-- R240(a): bytes that are only the beginning of a frame leave the engine without a step. -/
def Obligations.IncompleteFrameIsStuck : Prop :=
  ∀ (s : State) (i : Instr) (n : Nat), i.wellFormed = true → 0 < n → n < (encode i).length →
    s.resetLine = false → s.cmd = (encode i).take n → step s = .fault .frameIncomplete

/-- R230: the reset state, entry by entry, of State.reset and of the state any reset leaves. -/
def Obligations.ResetState : Prop :=
  ∀ t : State,
    (t = State.reset ∨ ∃ s : State, s.resetLine = true ∧ step s = .next t) →
    t.mem.bytes = List.replicate 200 0x00 ∧ toLanes t.mem.bytes = List.replicate 25 0 ∧
    t.phase = .idle ∧ t.err = 0x00 ∧ t.rate = 0 ∧ t.suffix = 0x00 ∧ t.outlen = 0 ∧ t.pos = 0 ∧ t.sqzPos = 0 ∧
    t.outCnt = 0 ∧ t.cmd = [] ∧ t.resp = [] ∧ t.k = 0

/-- R233: the reset state is observable. -/
def Obligations.ResetIsObservable : Prop :=
  (∃ t, exec .status State.reset = .next t ∧ t.resp = List.replicate 10 0x00) ∧
  (∃ t, exec (.extract 0 200) State.reset = .next t ∧ t.resp = 0x00 :: List.replicate 200 0x00)

/-- R236: what each element of a run does when the engine's channel is empty. The frame of a command is that command executed
on the engine's state; the frame of an illegal word is the error 0x04; a reset, before which the host reads every response
byte, leaves the state of R230, with two choices of the model: the reset line is released (notes/assumptions/6.md) and the
run's fault record is kept (notes/assumptions/9.md). What the host has collected is kept. -/
def Obligations.RunExecutesFrames : Prop :=
  ∀ r : RunState, r.engine.cmd = [] →
    (∀ (i : Instr) (f : Frame), r.engine.resetLine = false → frameOf i = some f → i.wellFormed = true →
      r.move (.frame f) = r.after (exec i r.engine)) ∧
    (∀ (f : Frame) (e : DecodeReject), r.engine.resetLine = false → decodeWord f.word f.payload = .error e →
      r.move (.frame f) = .next { r with engine := r.engine.raise .illegalCommand }) ∧
    r.move .reset =
      .next ⟨{ State.reset with faultRecord := r.engine.faultRecord }, r.collected ++ r.engine.resp⟩

/-! The control commands (45_control.md). -/

/-- R190: STATUS emits 00 and the nine register bytes and changes no state; its word is 0x01000000; with reserved bits set
it emits only 04 and sets ERR if it was 0x00. -/
def Obligations.StatusReadsRegisters : Prop :=
  (∀ s : State, exec .status s = .next
    { s with
      resp := s.resp ++
        [0x00, (match s.phase with | .idle => 0x00 | .absorbing => 0x01 | .squeezing => 0x02 | .done => 0x03),
         s.err, s.rate, s.suffix, s.outlen, s.pos, s.sqzPos,
         BitVec.ofNat 8 (s.outCnt.toNat % 256), BitVec.ofNat 8 (s.outCnt.toNat / 256)],
      k := s.k + 1 }) ∧
  decodeWord 0x01000000 [] = .ok .status ∧
  (∀ (s : State) (w : Word) (tail : List Byte), w.extractLsb' 24 8 = 0x01 → w.extractLsb' 0 24 ≠ 0 →
    s.resetLine = false → s.cmd = wordBytes w ++ tail → ∃ t, step s = .next t ∧ Failed { s with cmd := tail } t 0x04) ∧
  (∃ t, exec .status State.reset = .next t ∧ t.resp = [0, 0, 0, 0, 0, 0, 0, 0, 0, 0])

/-- R192: CLRERR clears ERR and nothing else; its word is 0x02000000; with reserved bits set it fails with 0x04 and leaves
ERR as it was if it was non-zero. -/
def Obligations.ClrErrClearsErr : Prop :=
  (∀ s : State, exec .clrErr s = .next { s with err := 0x00, resp := s.resp ++ [0x00], k := s.k + 1 }) ∧
  decodeWord 0x02000000 [] = .ok .clrErr ∧
  (∀ (s : State) (w : Word) (tail : List Byte), w.extractLsb' 24 8 = 0x02 → w.extractLsb' 0 24 ≠ 0 →
    s.resetLine = false → s.cmd = wordBytes w ++ tail → ∃ t, step s = .next t ∧ Failed { s with cmd := tail } t 0x04) ∧
  (∃ a b c, exec (.extract 199 2) State.reset = .next a ∧ a.err = 0x01 ∧ a.resp = [0x01] ∧
    exec .clrErr a = .next b ∧ b.resp = [0x01, 0x00] ∧
    exec .status b = .next c ∧ c.resp = [0x01, 0x00] ++ List.replicate 10 0x00)

/-! The hash instance (43_hash_instance.md). -/

/-- INIT with a rate in 1..200: a fresh zeroed instance with this profile in ABSORBING, from any phase; ERR is not
written (R160). -/
def Obligations.InitCreatesInstance : Prop :=
  ∀ (rate suffix outlen : Byte) (s : State), 1 ≤ rate.toNat → rate.toNat ≤ 200 →
    ∃ t, exec (.init rate suffix outlen) s = .next t ∧ (∀ a, t.mem.read a = 0x00) ∧
      t.rate = rate ∧ t.suffix = suffix ∧ t.outlen = outlen ∧ t.pos = 0 ∧ t.sqzPos = 0 ∧ t.outCnt = 0 ∧
      t.phase = .absorbing ∧ SameErrors s t ∧ SameInputs s t ∧ Answers s t [0x00]

/-- R161: exactly the rates 1..200 are accepted, with every suffix and every output length, capacity ≥ 2 × output not
enforced; any other rate fails with OutOfRange and leaves the previous instance intact. -/
def Obligations.InitChecksRate : Prop :=
  ∀ (rate suffix outlen : Byte) (s : State),
    (1 ≤ rate.toNat ∧ rate.toNat ≤ 200 →
      ∃ t, exec (.init rate suffix outlen) s = .next t ∧ Answers s t [0x00] ∧
        t.rate = rate ∧ t.suffix = suffix ∧ t.outlen = outlen) ∧
    (¬(1 ≤ rate.toNat ∧ rate.toNat ≤ 200) →
      ∃ t, exec (.init rate suffix outlen) s = .next t ∧ Failed s t 0x01)

/-- R163: INITK is INIT with the KSHAKE320 profile, it never fails, and the profile's rate is 1..120. -/
def Obligations.InitKBindsKshake320 : Prop :=
  1 ≤ Config.kshakeRate.toNat ∧ Config.kshakeRate.toNat ≤ 120 ∧
  ∀ s : State,
    exec .initK s = exec (.init Config.kshakeRate Config.kshakeSuffix 40) s ∧
    ∃ t, exec .initK s = .next t ∧ (∀ a, t.mem.read a = 0x00) ∧
      t.rate = Config.kshakeRate ∧ t.suffix = Config.kshakeSuffix ∧ t.outlen = 40 ∧
      t.pos = 0 ∧ t.sqzPos = 0 ∧ t.outCnt = 0 ∧ t.phase = .absorbing ∧
      SameErrors s t ∧ SameInputs s t ∧ Answers s t [0x00]

/-- FINAL in ABSORBING: S is padded and permuted, OUTLEN bytes of the squeeze stream follow the code 00, with one more
permutation at each window boundary crossed, and PHASE is DONE (R165, R143, R146). -/
def Obligations.FinalEmitsDigest : Prop :=
  ∀ s : State, s.phase = .absorbing → s.rate.toNat ≤ 200 → s.pos.toNat < s.rate.toNat →
    ∃ t padded, exec .final s = .next t ∧
      padded = keccakF ((s.mem.bytes.modify s.pos.toNat (· ^^^ s.suffix)).modify (s.rate.toNat - 1)
        (· ^^^ 0x80)) ∧
      Answers s t (0x00 :: (squeezeWindows s.rate.toNat s.outlen.toNat padded).take s.outlen.toNat) ∧
      t.mem.bytes = keccakF^[squeezePerms s.rate.toNat s.outlen.toNat] padded ∧
      t.phase = .done ∧ t.pos = 0 ∧ t.outCnt.toNat = s.outlen.toNat ∧
      t.sqzPos.toNat = (if s.outlen = 0 then 0 else (s.outlen.toNat - 1) % s.rate.toNat + 1) ∧
      SameProfile s t ∧ SameErrors s t ∧ SameInputs s t

/-- R165's errors: InvalidState in IDLE, AlreadyFinalized in SQUEEZING and DONE. -/
def Obligations.FinalChecksPhase : Prop :=
  ∀ s : State,
    (s.phase = .idle → ∃ t, exec .final s = .next t ∧ Failed s t 0x02) ∧
    (s.phase = .squeezing ∨ s.phase = .done → ∃ t, exec .final s = .next t ∧ Failed s t 0x03)

/-! The sponge (42_sponge.md). -/

/-- The pseudocode of R140 one byte at a time: no byte changes nothing but the response; a byte is XORed at POS, POS
moves on, and a full window is permuted at once with POS back to 0. -/
def Obligations.AbsorbByteByByte : Prop :=
  ∀ s : State, s.phase = .absorbing →
    exec (.absorb []) s = .next { s with resp := s.resp ++ [0x00], k := s.k + 1 } ∧
    ∀ (v : Byte) (p : List Byte), s.pos.toNat < 200 →
      exec (.absorb (v :: p)) s =
        exec (.absorb p)
          (if s.pos + 1 = s.rate then
            { s with mem := (s.mem.write s.pos.toNat (s.mem.read s.pos.toNat ^^^ v)).permute, pos := 0 }
           else
            { s with mem := s.mem.write s.pos.toNat (s.mem.read s.pos.toNat ^^^ v), pos := s.pos + 1 })

/-- ABSORB in ABSORBING completes for every payload: POS ends at (POS + n) mod RATE; PHASE and every other register stay;
while no block fills, exactly the bytes POS .. POS+n−1 take the payload and every other byte, the capacity among them, is
as before (R141, R140, R36). -/
def Obligations.AbsorbCompletes : Prop :=
  ∀ (s : State) (p : List Byte), s.phase = .absorbing → s.rate.toNat ≤ 200 → s.pos.toNat < s.rate.toNat →
    ∃ t, exec (.absorb p) s = .next t ∧ t.pos.toNat = (s.pos.toNat + p.length) % s.rate.toNat ∧
      t.phase = .absorbing ∧ t.sqzPos = s.sqzPos ∧ t.outCnt = s.outCnt ∧
      SameProfile s t ∧ SameErrors s t ∧ SameInputs s t ∧ Answers s t [0x00] ∧
      (s.pos.toNat + p.length < s.rate.toNat → ∀ a, t.mem.read a =
        if s.pos.toNat ≤ a ∧ a < s.pos.toNat + p.length then s.mem.read a ^^^ p.getD (a - s.pos.toNat) 0
        else s.mem.read a)

/-- ABSORB, of no bytes too, and PAD outside ABSORBING fail with InvalidState (R141, R144). -/
def Obligations.AbsorbAndPadCheckPhase : Prop :=
  ∀ s : State, s.phase ≠ .absorbing →
    (∀ p, ∃ t, exec (.absorb p) s = .next t ∧ Failed s t 0x02) ∧
    (∃ t, exec .pad s = .next t ∧ Failed s t 0x02)

/-- R142: absorbing b1 and then b2 leaves what absorbing b1 ++ b2 leaves, apart from the second response code and the
frame index. -/
def Obligations.AbsorbIsIncremental : Prop :=
  ∀ (s a b : State) (b1 b2 : List Byte), s.phase = .absorbing →
    exec (.absorb b1) s = .next a → exec (.absorb b2) a = .next b →
    exec (.absorb (b1 ++ b2)) s = .next { b with resp := s.resp ++ [0x00], k := s.k + 1 }

/-- PAD in ABSORBING: SUFFIX is XORed at POS and 0x80 at RATE−1 (one byte takes both when POS = RATE−1), S is permuted
once, POS, SQZ_POS and OUT_CNT are cleared and PHASE is SQUEEZING (R143, R144). -/
def Obligations.PadSwitchesToSqueezing : Prop :=
  ∀ s : State, s.phase = .absorbing → s.rate.toNat ≤ 200 → s.pos.toNat < s.rate.toNat →
    ∃ t, exec .pad s = .next t ∧
      t.mem.bytes = keccakF ((s.mem.bytes.modify s.pos.toNat (· ^^^ s.suffix)).modify (s.rate.toNat - 1)
        (· ^^^ 0x80)) ∧
      t.phase = .squeezing ∧ t.pos = 0 ∧ t.sqzPos = 0 ∧ t.outCnt = 0 ∧
      SameProfile s t ∧ SameErrors s t ∧ SameInputs s t ∧ Answers s t [0x00]

/-- SQUEEZE in SQUEEZING and DONE emits the next n bytes of the squeeze stream: the rest of the window, then the windows of
KeccakF(S), KeccakF(KeccakF(S)), ...; the permutation is lazy; OUT_CNT saturates; PHASE is DONE once OUT_CNT ≥ OUTLEN
(R146, R147). -/
def Obligations.SqueezeEmitsStream : Prop :=
  ∀ (s : State) (n : BitVec 16), s.phase = .squeezing ∨ s.phase = .done →
    1 ≤ s.rate.toNat → s.rate.toNat ≤ 200 → s.sqzPos.toNat ≤ s.rate.toNat →
    ∃ t, exec (.squeeze n) s = .next t ∧
      Answers s t (0x00 :: ((s.mem.bytes.take s.rate.toNat).drop s.sqzPos.toNat ++
        squeezeWindows s.rate.toNat n.toNat (keccakF s.mem.bytes)).take n.toNat) ∧
      t.mem.bytes = keccakF^[(s.sqzPos.toNat + n.toNat - 1) / s.rate.toNat] s.mem.bytes ∧
      t.sqzPos.toNat =
        (if n = 0 then s.sqzPos.toNat else (s.sqzPos.toNat + n.toNat - 1) % s.rate.toNat + 1) ∧
      t.outCnt.toNat = min 65535 (s.outCnt.toNat + n.toNat) ∧
      t.phase = (if s.outlen.toNat ≤ min 65535 (s.outCnt.toNat + n.toNat) then .done else s.phase) ∧
      t.pos = s.pos ∧ SameProfile s t ∧ SameErrors s t ∧ SameInputs s t

/-- SQUEEZE in IDLE and ABSORBING fails with InvalidState (R147). -/
def Obligations.SqueezeChecksPhase : Prop :=
  ∀ (s : State) (n : BitVec 16), s.phase = .idle ∨ s.phase = .absorbing →
    ∃ t, exec (.squeeze n) s = .next t ∧ Failed s t 0x02

/-- Squeezing n and then m bytes emits the bytes of squeezing n + m, none skipped or repeated, and leaves the same state,
apart from the second response code and the frame index (R146; V28). -/
def Obligations.SqueezeIsIncremental : Prop :=
  ∀ (s a b : State) (n m : BitVec 16), n.toNat + m.toNat ≤ 65535 →
    s.phase = .squeezing ∨ s.phase = .done →
    exec (.squeeze n) s = .next a → exec (.squeeze m) a = .next b →
    ∃ d1 d2, d1.length = n.toNat ∧ d2.length = m.toNat ∧ a.resp = s.resp ++ 0x00 :: d1 ∧
      b.resp = a.resp ++ 0x00 :: d2 ∧
      exec (.squeeze (n + m)) s = .next { b with resp := s.resp ++ 0x00 :: (d1 ++ d2), k := s.k + 1 }

/-- The model's choice of notes/assumptions/7.md: where register values that R23 does not call legal would take the sponge
to an address outside 0..199, ABSORB, PAD, SQUEEZE and FINAL stop by name. -/
def Obligations.SpongeStopsOutsideState : Prop :=
  ∀ s : State,
    (∀ v p, s.phase = .absorbing → 200 ≤ s.pos.toNat → exec (.absorb (v :: p)) s = .fault .noSuchStateByte) ∧
    (s.phase = .absorbing → 200 ≤ s.pos.toNat ∨ s.rate.toNat = 0 ∨ 200 < s.rate.toNat →
      exec .pad s = .fault .noSuchStateByte ∧ exec .final s = .fault .noSuchStateByte) ∧
    (∀ n : BitVec 16, n ≠ 0 → s.phase = .squeezing ∨ s.phase = .done → s.sqzPos ≠ s.rate →
      200 ≤ s.sqzPos.toNat → exec (.squeeze n) s = .fault .noSuchStateByte)

/-- R149: INIT r, s, L; the message in any chunks; FINAL emit 00 for each command and then Sponge(r, s, m, L), from any
state. -/
def Obligations.InstanceComputesSponge : Prop :=
  ∀ (s : State) (rate suffix outlen : Byte) (chunks : List (List Byte)),
    1 ≤ rate.toNat → rate.toNat ≤ 200 →
    ∃ t, execAll (.init rate suffix outlen :: (chunks.map Instr.absorb ++ [.final])) s = .next t ∧
      t.resp = s.resp ++ 0x00 :: (List.replicate chunks.length 0x00 ++
        0x00 :: sponge rate.toNat suffix chunks.flatten outlen.toNat) ∧
      t.phase = .done ∧ SameErrors s t ∧ SameInputs s t

/-- Sponge(r, s, m, L) has exactly L bytes (R149, R182: a digest is always 40 bytes). -/
def Obligations.SpongeOutputLength : Prop :=
  (∀ (r : Nat) (s : Byte) (m : List Byte) (L : Nat), 1 ≤ r → r ≤ 200 → (sponge r s m L).length = L) ∧
  (∀ m, (kshake320 m).length = 40)

/-! The wrapper (44_kshake320.md). -/

/-- R180, R182, R187: HASH never fails, in any phase and for any payload; it emits 00 and KSHAKE320 of the payload and
leaves a finished KSHAKE320 instance; ERR is not written. -/
def Obligations.HashEmitsKshake320 : Prop :=
  ∀ (s : State) (p : List Byte),
    ∃ t, exec (.hash p) s = .next t ∧ Answers s t (0x00 :: kshake320 p) ∧
      t.mem.bytes = keccakF^[39 / Config.kshakeRate.toNat]
        (spongePadded Config.kshakeRate.toNat Config.kshakeSuffix p) ∧
      t.rate = Config.kshakeRate ∧ t.suffix = Config.kshakeSuffix ∧ t.outlen = 40 ∧ t.pos = 0 ∧
      t.sqzPos.toNat = 39 % Config.kshakeRate.toNat + 1 ∧ t.outCnt = 40 ∧ t.phase = .done ∧
      SameErrors s t ∧ SameInputs s t

/-- R181: INITK, the message in any chunks, FINAL emit the bytes of HASH's digest and leave the state HASH leaves, apart
from the response channel and the frame index. -/
def Obligations.StreamedHashIsHash : Prop :=
  ∀ (s h : State) (chunks : List (List Byte)), exec (.hash chunks.flatten) s = .next h →
    ∃ t, execAll (.initK :: (chunks.map Instr.absorb ++ [.final])) s = .next t ∧
      t.resp = s.resp ++ 0x00 :: (List.replicate chunks.length 0x00 ++ 0x00 :: kshake320 chunks.flatten) ∧
      { t with resp := h.resp, k := h.k } = h

/-- R83, R181: POW_HASH of any message, at most 65535 bytes or more, ends by emitting its KSHAKE320 digest. -/
def Obligations.PowHashComputesKshake320 : Prop :=
  ∀ (s : State) (bs : List Byte),
    ∃ t n, execAll (expandPseudo (.powHash bs)) s = .next t ∧
      t.resp = s.resp ++ List.replicate n 0x00 ++ 0x00 :: kshake320 bs ∧ t.phase = .done ∧
      (bs.length ≤ 65535 → n = 0)

/-! The adapter (41_adapter.md). -/

/-- XOR_IN within bounds, in every phase: byte offset + i takes P[i], every other byte and every register is as
before (R131). -/
def Obligations.XorInWritesWindow : Prop :=
  ∀ (s : State) (offset : Byte) (p : List Byte), offset.toNat + p.length ≤ 200 →
    ∃ t, exec (.xorIn offset p) s = .next t ∧
      (∀ a, t.mem.read a =
        if offset.toNat ≤ a ∧ a < offset.toNat + p.length then s.mem.read a ^^^ p.getD (a - offset.toNat) 0
        else s.mem.read a) ∧
      SameInstance s t ∧ SameErrors s t ∧ SameInputs s t ∧ Answers s t [0x00]

/-- R54: two XOR_INs of the same bytes at the same offset cancel; where S is held in its canonical form they leave the
very same data. -/
def Obligations.XorInTwiceCancels : Prop :=
  ∀ (s a b : State) (offset : Byte) (p : List Byte), offset.toNat + p.length ≤ 200 →
    exec (.xorIn offset p) s = .next a → exec (.xorIn offset p) a = .next b →
    SameS s b ∧ (s.mem.wf = true → b.mem = s.mem)

/-- R52: XOR_IN of a byte v at address a XORs zext_64(v) << (8·(a mod 8)) into lane a div 8 and no other lane, and EXTRACT
of address a emits that byte of the lane. -/
def Obligations.AdapterActsOnLanes : Prop :=
  ∀ (s : State) (a : Byte) (v : Byte), a.toNat < 200 →
    (∃ t, exec (.xorIn a [v]) s = .next t ∧
      ∀ n, n < 25 → laneXY (toLanes t.mem.bytes) (n % 5) (n / 5) =
        if n = a.toNat / 8 then
          laneXY (toLanes s.mem.bytes) (n % 5) (n / 5) ^^^ (v.zeroExtend 64 <<< (8 * (a.toNat % 8)))
        else laneXY (toLanes s.mem.bytes) (n % 5) (n / 5)) ∧
    (∃ t, exec (.extract a 1) s = .next t ∧
      t.resp = s.resp ++ [0x00,
        ((laneXY (toLanes s.mem.bytes) (a.toNat / 8 % 5) (a.toNat / 8 / 5) >>> (8 * (a.toNat % 8)))
          &&& 0xFF).truncate 8])

/-- EXTRACT within bounds emits 00 and the bytes offset .. offset+len−1, and changes no state (R133, R54). -/
def Obligations.ExtractReadsWindow : Prop :=
  ∀ (s : State) (offset len : Byte), offset.toNat + len.toNat ≤ 200 →
    exec (.extract offset len) s = .next
      { s with
        resp := s.resp ++ 0x00 :: (List.range len.toNat).map fun i => s.mem.read (offset.toNat + i),
        k := s.k + 1 }

/-- R130: the bound is on the exact sum; beyond it XOR_IN and EXTRACT fail with OutOfRange and change nothing but ERR;
within it they succeed, and an access of no bytes at any offset up to 200 touches nothing. -/
def Obligations.AdapterChecksBound : Prop :=
  ∀ (s : State) (offset : Byte),
    (∀ p : List Byte,
      (offset.toNat + p.length > 200 → ∃ t, exec (.xorIn offset p) s = .next t ∧ Failed s t 0x01) ∧
      (offset.toNat + p.length ≤ 200 → ∃ t, exec (.xorIn offset p) s = .next t ∧ Answers s t [0x00])) ∧
    (∀ len : Byte,
      (offset.toNat + len.toNat > 200 → ∃ t, exec (.extract offset len) s = .next t ∧ Failed s t 0x01) ∧
      (offset.toNat + len.toNat ≤ 200 →
        ∃ t data, exec (.extract offset len) s = .next t ∧ Answers s t (0x00 :: data))) ∧
    (offset.toNat ≤ 200 →
      (∃ t, exec (.xorIn offset []) s = .next t ∧ SameS s t ∧ Answers s t [0x00]) ∧
      (∃ t, exec (.extract offset 0) s = .next t ∧ SameS s t ∧ Answers s t [0x00]))

/-! The permutation (40_permutation.md). -/

/-- R110: PERMUTE, in every phase, sets S to KeccakF(S) and leaves every register alone; nothing appears outside
addresses 0..199. -/
def Obligations.PermuteAppliesKeccakF : Prop :=
  ∀ s : State, ∃ t, exec .permute s = .next t ∧ t.mem.bytes = keccakF s.mem.bytes ∧
    (∀ a, 200 ≤ a → t.mem.read a = 0x00) ∧
    SameInstance s t ∧ SameErrors s t ∧ SameInputs s t ∧ Answers s t [0x00]

/-- R115 and V1: KeccakF of the all-zero state, lane by lane, two lanes of a second application, and PERMUTE then
EXTRACT 0, 8 from reset. -/
def Obligations.KeccakFOfZero : Prop :=
  keccakRounds (List.replicate 25 0) =
    [0xF1258F7940E1DDE7, 0x84D5CCF933C0478A, 0xD598261EA65AA9EE, 0xBD1547306F80494D, 0x8B284E056253D057,
     0xFF97A42D7F8E6FD4, 0x90FEE5A0A44647C4, 0x8C5BDA0CD6192E76, 0xAD30A6F71B19059C, 0x30935AB7D08FFC64,
     0xEB5AA93F2317D635, 0xA9A6E6260D712103, 0x81A57C16DBCF555F] ++
    [0x43B831CD0347C826, 0x01F22F1A11A5569F, 0x05E5635A21D9AE61, 0x64BEFEF28CC970F2, 0x613670957BC46611,
     0xB87C5A554FD00ECB, 0x8C3EE88A1CCF32C8, 0x940C7922AE3A2614, 0x1841F924A2C509E4, 0x16F53526E70465C2,
     0x75F644E97F30A13B, 0xEAF1FF7B5CECA249] ∧
  laneXY (keccakRounds (keccakRounds (List.replicate 25 0))) 0 0 = 0x2D5C954DF96ECB3C ∧
  laneXY (keccakRounds (keccakRounds (List.replicate 25 0))) 1 0 = 0x6A332CD07057B56D ∧
  (∃ a b, exec .permute State.reset = .next a ∧ exec (.extract 0 8) a = .next b ∧
    b.resp = [0x00, 0x00, 0xe7, 0xdd, 0xe1, 0x40, 0x79, 0x8f, 0x25, 0xf1])

/-- R103, R104, R106, R107: what θ, ρ, χ and ι put into lane (x, y), from the input lanes only (the spec marks the steps
as general knowledge, 93_implementation_defined.md G4). -/
def Obligations.StepMappingsByLane : Prop :=
  ∀ (A : Lanes) (x y : Nat), x < 5 → y < 5 →
    laneXY (theta A) x y = laneXY A x y ^^^
      ((laneXY A (x + 4) 0 ^^^ laneXY A (x + 4) 1 ^^^ laneXY A (x + 4) 2 ^^^ laneXY A (x + 4) 3 ^^^
        laneXY A (x + 4) 4) ^^^
       (laneXY A (x + 1) 0 ^^^ laneXY A (x + 1) 1 ^^^ laneXY A (x + 1) 2 ^^^ laneXY A (x + 1) 3 ^^^
        laneXY A (x + 1) 4).rotateLeft 1) ∧
    laneXY (rho A) x y = (laneXY A x y).rotateLeft
      (([[0, 36, 3, 41, 18], [1, 44, 10, 45, 2], [62, 6, 43, 15, 61], [28, 55, 25, 21, 56],
         [27, 20, 39, 8, 14]].getD x []).getD y 0) ∧
    (∀ j, j < 64 → (laneXY (chi A) x y).getLsbD j =
      ((laneXY A x y).getLsbD j ^^
        (!(laneXY A (x + 1) y).getLsbD j && (laneXY A (x + 2) y).getLsbD j))) ∧
    (∀ i, laneXY (iota A i) x y =
      if x = 0 ∧ y = 0 then laneXY A 0 0 ^^^ roundConstants.getD i 0 else laneXY A x y)

/-- R105: π moves lane (x, y) to (y, (2x + 3y) mod 5), which is a bijection on the 25 positions and fixes (0, 0). -/
def Obligations.PiMovesLanes : Prop :=
  (∀ (A : Lanes) (x y : Nat), x < 5 → y < 5 → laneXY (piStep A) y ((2 * x + 3 * y) % 5) = laneXY A x y) ∧
  (∀ u v, u < 5 → v < 5 → ∃ x y, x < 5 ∧ y < 5 ∧ y = u ∧ (2 * x + 3 * y) % 5 = v ∧
    ∀ x' y', x' < 5 → y' < 5 → y' = u → (2 * x' + 3 * y') % 5 = v → x' = x ∧ y' = y) ∧
  (∀ A : Lanes, laneXY (piStep A) 0 0 = laneXY A 0 0)

/-- R108 and R109: the two derivations give the tables of R107 and R104 exactly, and only bits 0, 1, 3, 7, 15, 31 and 63
of a round constant can be set. -/
def Obligations.TablesMatchDerivations : Prop :=
  (List.range 24).map derivedRoundConstant = roundConstants.map BitVec.toNat ∧
  (∀ c ∈ roundConstants, ∀ j, j < 64 → c.getLsbD j = true → j ∈ [0, 1, 3, 7, 15, 31, 63]) ∧
  rhoOffset 0 0 = 0 ∧ (∀ t, t < 24 → rhoOffset (rhoWalk t).1 (rhoWalk t).2 = derivedOffset t) ∧
  (∀ x y, x < 5 → y < 5 → (x = 0 ∧ y = 0) ∨ ∃ t, t < 24 ∧ rhoWalk t = (x, y))

/-- R21: bit j of Lane(x, y) is bit (j mod 8) of S[8·(x + 5·y) + (j div 8)], and writing the lanes back is the inverse. -/
def Obligations.LanesAreTheBytes : Prop :=
  (∀ (S : List Byte) (x y j : Nat), x < 5 → y < 5 → j < 64 →
    (laneXY (toLanes S) x y).getLsbD j = (byteAt S (8 * (x + 5 * y) + j / 8)).getLsbD (j % 8)) ∧
  (∀ S : List Byte, S.length = 200 → ofLanes (toLanes S) = S) ∧
  (∀ A : Lanes, A.length = 25 → toLanes (ofLanes A) = A)

/-! Errors and what every command has in common (60_exceptions.md, 10_state.md). -/

/-- R202, R209: the response code of every command in every state, and R201: a success emits 00 and the data of its rule,
an error emits its code and nothing else and has exactly the effect of R203. -/
def Obligations.ResponseFollowsErrorTable : Prop :=
  ∀ (i : Instr) (s t : State), exec i s = .next t →
    (responseCode i s = 0x00 →
      ∃ data, data.length = dataLength i s ∧ Answers s t (0x00 :: data) ∧ t.faultRecord = s.faultRecord) ∧
    (responseCode i s ≠ 0x00 → Failed s t (responseCode i s))

/-- Every command completes from every state that meets R32: the model stops on none (R237, R134). -/
def Obligations.EveryCommandCompletes : Prop :=
  ∀ (i : Instr) (s : State), s.Inv → ∃ t, exec i s = .next t

/-- R24: the four encodings, the phase after each command, that a failing command leaves it as it was, that no command
leads back to IDLE, and that PHASE is IDLE at reset. -/
def Obligations.PhaseTransitions : Prop :=
  (phaseBits .idle = 0 ∧ phaseBits .absorbing = 1 ∧ phaseBits .squeezing = 2 ∧ phaseBits .done = 3) ∧
  (∀ (i : Instr) (s t : State), exec i s = .next t →
    t.phase =
      (match i with
        | .init rate _ _ => if 1 ≤ rate.toNat ∧ rate.toNat ≤ 200 then .absorbing else s.phase
        | .initK => .absorbing
        | .pad => if s.phase = .absorbing then .squeezing else s.phase
        | .squeeze n =>
          if (s.phase = .squeezing ∨ s.phase = .done) ∧
            s.outlen.toNat ≤ min 65535 (s.outCnt.toNat + n.toNat) then .done else s.phase
        | .final => if s.phase = .absorbing then .done else s.phase
        | .hash _ => .done
        | .status | .clrErr | .absorb _ | .xorIn _ _ | .extract _ _ | .permute => s.phase) ∧
    (responseCode i s ≠ 0x00 → t.phase = s.phase)) ∧
  (∀ s t : State, s.resetLine = false → step s = .next t → t.phase = .idle → s.phase = .idle) ∧
  State.reset.phase = .idle

/-- R244, R25 to R27: no command but INIT, INITK and HASH writes RATE, SUFFIX or OUTLEN. -/
def Obligations.ProfileIsFixed : Prop :=
  ∀ (i : Instr) (s t : State), exec i s = .next t →
    i.op ≠ .init → i.op ≠ .initK → i.op ≠ .hash → SameProfile s t

/-- R31, R206: in a step that is no reset, a non-zero ERR keeps its first code unless the step takes a CLRERR, and CLRERR
leaves 0x00. -/
def Obligations.ErrIsSticky : Prop :=
  ∀ (s t : State), s.resetLine = false → step s = .next t →
    (∀ rest, decodeFrame s.cmd = .instr .clrErr rest → t.err = 0x00) ∧
    ((∀ rest, decodeFrame s.cmd ≠ .instr .clrErr rest) → s.err ≠ 0x00 → t.err = s.err)

/-- R208: the fault record is the first non-zero response code of the run, and no later step clears it, CLRERR and reset
included (the model keeps it across a reset, notes/assumptions/9.md). -/
def Obligations.FaultRecordIsKept : Prop :=
  ∀ (s t : State), step s = .next t →
    (s.faultRecord ≠ none → t.faultRecord = s.faultRecord) ∧
    (∀ code, s.faultRecord = none → t.resp = s.resp ++ [code] → code ≠ 0x00 →
      t.faultRecord.map codeByte = some code)

/-- R22: every command advances the frame index by exactly one, whether it succeeds or fails, a command with an illegal
word among them. -/
def Obligations.FrameIndexCountsCommands : Prop :=
  ∀ (s t : State), s.resetLine = false → s.cmd ≠ [] → step s = .next t → t.k = s.k + 1

/-- R245, R148: the permutations each command makes, by the table; and the counted loops are the machine's loops. -/
def Obligations.PermutationCounts : Prop :=
  (∀ (i : Instr) (s : State), s.Inv → permutationsOf i s = costTable i s) ∧
  (∀ (s : State) (p : List Byte), (absorbCounted s p).1 = s.absorbBytes p) ∧
  (∀ (s : State) (n : Nat), (squeezeCounted n s).1 = State.squeezeLoop n s)

/-! Invariants (10_state.md R32). -/

/-- The invariants hold at reset. -/
def Obligations.InvAtReset : Prop := State.reset.Inv

/-- R32: every step keeps the seven invariants, the canonical form of S, and that a code in ERR is one the run has recorded
(R203(c), R208), from every state that meets them. -/
def Obligations.StepKeepsInv : Prop :=
  ∀ (s t : State), s.Inv → step s = .next t → t.Inv

/-! Several engines (10_state.md R39, 60_exceptions.md R213). -/

/-- R39, R58: in any interleaving of the engines' turns, each engine is where its own turns alone would take it. -/
def Obligations.EnginesAreIsolated : Prop :=
  ∀ (p : Platform) (schedule : List Nat) (e : Nat),
    (p.run schedule)[e]? = p[e]?.map (State.turns (schedule.count e))

/-! The output formatter (44_kshake320.md). -/

/-- R183: DigestInt is the ten little-endian words' sum, which is the whole digest read little-endian, below 2^320. -/
def Obligations.DigestIntIsLittleEndian : Prop :=
  ∀ d : List Byte, d.length = 40 →
    digestInt d = ((List.range 10).map fun i =>
      ((d.getD (4 * i) 0).toNat + (d.getD (4 * i + 1) 0).toNat * 2 ^ 8 +
        (d.getD (4 * i + 2) 0).toNat * 2 ^ 16 + (d.getD (4 * i + 3) 0).toNat * 2 ^ 24) * 2 ^ (32 * i)).sum ∧
    digestInt d = ((List.range 40).map fun j => (d.getD j 0).toNat * 2 ^ (8 * j)).sum ∧
    digestInt d < 2 ^ 320

/-- R184: DisplayHex is the bytes in reverse order, each as two lowercase digits, most significant nibble first: exactly 80
characters, all of 0-9 and a-f, which are DigestInt in hexadecimal, left-padded with '0'. -/
def Obligations.DisplayHexIsDigestInt : Prop :=
  ∀ d : List Byte, d.length = 40 →
    displayHex d = ((List.range 40).flatMap fun i =>
      [("0123456789abcdef".toList.getD ((d.getD (39 - i) 0).toNat / 16) ' '),
       ("0123456789abcdef".toList.getD ((d.getD (39 - i) 0).toNat % 16) ' ')]) ∧
    (displayHex d).length = 80 ∧ (∀ c ∈ displayHex d, c ∈ "0123456789abcdef".toList) ∧
    displayHex d = hexPadded 80 (digestInt d)

/-! Conformance (44_kshake320.md section 1). -/

/-- An engine passes the known-answer test on a message exactly when the two OPEN parameters meet the digest's equation on it:
conformance is a hypothesis over KSHAKE_RATE, KSHAKE_SUFFIX and the message, and this says nothing of whether it holds. -/
def Obligations.ConformanceIsAHypothesis : Prop :=
  ∀ m : List Byte, hashConforms m ↔ conformsUnder Config.kshakeRate Config.kshakeSuffix m
end

