-- ==== Sys2Proof/Laws/Decode.lean ====
section
/-! SUPPORT. The command word's fields, the decoder on a whole word, and each command's encoded fields
(30_encoding.md R70 to R82). -/

namespace Sys2Proof

/-! Fields of a word of four bytes, and back (R51, R70). -/

theorem wordOfBytes_toNat (b0 b1 b2 b3 : Byte) : (wordOfBytes b0 b1 b2 b3).toNat =
    b0.toNat * 2 ^ 24 + b1.toNat * 2 ^ 16 + b2.toNat * 2 ^ 8 + b3.toNat := by
  have h1 := b1.isLt
  have h2 := b2.isLt
  have h3 := b3.isLt
  change (b0 ++ b1 ++ b2 ++ b3 : BitVec (8 + 8 + 8 + 8)).toNat = _
  rw [BitVec.toNat_append, BitVec.toNat_append, BitVec.toNat_append, ← Nat.shiftLeft_add_eq_or_of_lt h3,
    ← Nat.shiftLeft_add_eq_or_of_lt h2, ← Nat.shiftLeft_add_eq_or_of_lt h1]
  simp only [Nat.shiftLeft_eq]
  omega

theorem opField_toNat (w : Word) : (opField w).toNat = w.toNat / 2 ^ 24 % 2 ^ 8 := by
  simp [opField, BitVec.extractLsb'_toNat, Nat.shiftRight_eq_div_pow]

theorem fieldA_toNat (w : Word) : (fieldA w).toNat = w.toNat / 2 ^ 16 % 2 ^ 8 := by
  simp [fieldA, BitVec.extractLsb'_toNat, Nat.shiftRight_eq_div_pow]

theorem fieldB_toNat (w : Word) : (fieldB w).toNat = w.toNat / 2 ^ 8 % 2 ^ 8 := by
  simp [fieldB, BitVec.extractLsb'_toNat, Nat.shiftRight_eq_div_pow]

theorem fieldC_toNat (w : Word) : (fieldC w).toNat = w.toNat % 2 ^ 8 := by
  simp [fieldC, BitVec.extractLsb'_toNat]

/-- L16 is bits 23:8 (R70). -/
theorem fieldL16_toNat' (w : Word) : (fieldL16 w).toNat = w.toNat / 2 ^ 8 % 2 ^ 16 := by
  simp [fieldL16, BitVec.extractLsb'_toNat, Nat.shiftRight_eq_div_pow]

@[simp] theorem opField_wordOfBytes (b0 b1 b2 b3 : Byte) : opField (wordOfBytes b0 b1 b2 b3) = b0 := by
  apply BitVec.eq_of_toNat_eq
  rw [opField_toNat, wordOfBytes_toNat]
  omega

@[simp] theorem fieldA_wordOfBytes (b0 b1 b2 b3 : Byte) : fieldA (wordOfBytes b0 b1 b2 b3) = b1 := by
  apply BitVec.eq_of_toNat_eq
  rw [fieldA_toNat, wordOfBytes_toNat]
  omega

@[simp] theorem fieldB_wordOfBytes (b0 b1 b2 b3 : Byte) : fieldB (wordOfBytes b0 b1 b2 b3) = b2 := by
  apply BitVec.eq_of_toNat_eq
  rw [fieldB_toNat, wordOfBytes_toNat]
  omega

@[simp] theorem fieldC_wordOfBytes (b0 b1 b2 b3 : Byte) : fieldC (wordOfBytes b0 b1 b2 b3) = b3 := by
  apply BitVec.eq_of_toNat_eq
  rw [fieldC_toNat, wordOfBytes_toNat]
  omega

/-- L16 = A·256 + B (R70). -/
theorem fieldL16_toNat (w : Word) : (fieldL16 w).toNat = (fieldA w).toNat * 256 + (fieldB w).toNat := by
  rw [fieldL16_toNat', fieldA_toNat, fieldB_toNat]
  omega

/-- A word is its four bytes (R51). -/
theorem wordOfBytes_fields (w : Word) : wordOfBytes (opField w) (fieldA w) (fieldB w) (fieldC w) = w := by
  apply BitVec.eq_of_toNat_eq
  rw [wordOfBytes_toNat, opField_toNat, fieldA_toNat, fieldB_toNat, fieldC_toNat]
  omega

/-! Fields of a word of format L (R71). -/

theorem lengthWord_toNat (op : Byte) (n : BitVec 16) :
    (lengthWord op n).toNat = op.toNat * 2 ^ 24 + n.toNat * 2 ^ 8 := by
  have hn := n.isLt
  change (op ++ n ++ 0x00#8 : BitVec (8 + 16 + 8)).toNat = _
  rw [BitVec.toNat_append, BitVec.toNat_append, ← Nat.shiftLeft_add_eq_or_of_lt (by decide),
    ← Nat.shiftLeft_add_eq_or_of_lt hn]
  simp only [Nat.shiftLeft_eq, BitVec.toNat_ofNat]
  omega

@[simp] theorem opField_lengthWord (op : Byte) (n : BitVec 16) : opField (lengthWord op n) = op := by
  apply BitVec.eq_of_toNat_eq
  rw [opField_toNat, lengthWord_toNat]
  omega

@[simp] theorem fieldL16_lengthWord (op : Byte) (n : BitVec 16) : fieldL16 (lengthWord op n) = n := by
  apply BitVec.eq_of_toNat_eq
  rw [fieldL16_toNat', lengthWord_toNat]
  omega

@[simp] theorem fieldC_lengthWord (op : Byte) (n : BitVec 16) : fieldC (lengthWord op n) = 0 := by
  apply BitVec.eq_of_toNat_eq
  rw [fieldC_toNat, lengthWord_toNat, show (0 : Byte).toNat = 0 from rfl]
  omega

/-- A word whose reserved byte is 0 is the word of format L of its opcode and length. -/
theorem lengthWord_fields {w : Word} (h : fieldC w = 0) : lengthWord (opField w) (fieldL16 w) = w := by
  apply BitVec.eq_of_toNat_eq
  have hc : w.toNat % 2 ^ 8 = 0 := by
    rw [← fieldC_toNat, h]
    rfl
  rw [lengthWord_toNat, opField_toNat, fieldL16_toNat']
  omega

theorem wordBytes_wordOfBytes (b0 b1 b2 b3 : Byte) :
    wordBytes (wordOfBytes b0 b1 b2 b3) = [b0, b1, b2, b3] := by simp [wordBytes]

/-! The opcode map (R72). -/

@[simp] theorem opOfByte_code (o : Op) : opOfByte o.code = some o := by cases o <;> rfl

theorem opOfByte_eq_some {b : Byte} {o : Op} (h : opOfByte b = some o) : b = o.code := by
  have := List.find?_some h
  simpa using (beq_iff_eq.mp this).symm

/-- PayloadLen by command (R76). -/
theorem payloadLen_of_op {w : Word} {o : Op} (h : opField w = o.code) :
    payloadLen w = if o = .absorb ∨ o = .hash then (fieldL16 w).toNat
      else if o = .xorIn then (fieldB w).toNat else 0 := by
  rw [payloadLen, h]
  cases o <;> simp [Op.code]

/-! The decoder on a whole word (R76, R80). -/

/-- The decoder on a word's four bytes and what follows. -/
theorem decodeFrame_wordBytes (w : Word) (tail : List Byte) :
    decodeFrame (wordBytes w ++ tail) =
      if tail.length < payloadLen w then .incomplete else decodeWhole w tail := by
  simp [wordBytes, decodeFrame, wordOfBytes_fields]

/-- The decoder on a whole frame and what follows. -/
theorem decodeFrame_frame (w : Word) (p tail : List Byte) (h : p.length = payloadLen w) :
    decodeFrame (wordBytes w ++ p ++ tail) =
      match decodeWord w p with
      | .ok i => .instr i tail
      | .error r => .illegal r tail := by
  rw [List.append_assoc, decodeFrame_wordBytes, if_neg (by rw [List.length_append]; omega)]
  cases hd : decodeWord w p <;> simp [decodeWhole, ← h, hd]

/-! The encoder's fields (R71, R82). -/

/-- The command word carries its command's OP value (R72). -/
@[simp] theorem opField_commandWord (i : Instr) : opField (commandWord i) = i.op.code := by
  cases i <;> first | rfl | simp [commandWord, Instr.op, Op.code]

/-- The reserved field of an encoded command is zero (R77). -/
theorem reservedField_commandWord (i : Instr) : reservedField i.op.format (commandWord i) = 0 := by
  cases i <;> first | rfl | simp [commandWord, Instr.op, Op.format, reservedField]

/-- A well-formed command's word announces exactly its payload (R76). -/
theorem payloadLen_commandWord {i : Instr} (h : i.wellFormed = true) :
    payloadLen (commandWord i) = i.payload.length := by
  rw [payloadLen_of_op (opField_commandWord i)]
  cases i <;> simp [Instr.op, Instr.payload, commandWord, Instr.wellFormed] at h ⊢ <;> omega

/-- A word and a payload of the length it announces make a frame. -/
theorem Frame.ofParts_eq {w : Word} {p : List Byte} (h : p.length = payloadLen w) :
    Frame.ofParts w p = some ⟨w, p, h⟩ := dif_pos h

/-- A word and a payload of another length make none (R76). -/
theorem Frame.ofParts_eq_none {w : Word} {p : List Byte} (h : p.length ≠ payloadLen w) :
    Frame.ofParts w p = none := dif_neg h

/-- A well-formed command has a frame, whose bytes are its encoding (R76, R82). -/
theorem frameOf_eq {i : Instr} (h : i.wellFormed = true) :
    frameOf i = some ⟨commandWord i, i.payload, (payloadLen_commandWord h).symm⟩ :=
  Frame.ofParts_eq (payloadLen_commandWord h).symm

theorem bytes_of_frameOf {i : Instr} {f : Frame} (h : frameOf i = some f) : f.bytes = encode i := by
  rw [frameOf, Frame.ofParts] at h
  split at h
  · cases h
    rfl
  · cases h

end Sys2Proof
end

