-- ==== Sys2Proof/Laws/Memory.lean ====
section
/-! SUPPORT. The state space: a read after a write, and every operation keeps the canonical form (20_memory.md R50). -/

namespace Sys2Proof.Machine

/-! Reading. -/

@[simp] theorem Memory.read_nil (a : Nat) : Memory.read [] a = 0x00 := rfl

theorem Memory.read_cons (b : Nat) (v : Byte) (m : Memory) (a : Nat) :
    Memory.read ((b, v) :: m) a = if b = a then v else Memory.read m a := rfl

theorem Memory.erase_cons (b : Nat) (v : Byte) (m : Memory) (a : Nat) :
    Memory.erase ((b, v) :: m) a = if b = a then Memory.erase m a else (b, v) :: Memory.erase m a := by
  by_cases h : b = a <;> simp [Memory.erase, h]

theorem Memory.read_erase (m : Memory) (a b : Nat) :
    (m.erase a).read b = if a = b then 0x00 else m.read b := by
  induction m with
  | nil => simp [Memory.erase]
  | cons c m ih =>
    obtain ⟨d, v⟩ := c
    rw [Memory.erase_cons]
    by_cases h : d = a
    · subst h
      rw [if_pos rfl, ih, Memory.read_cons]
      by_cases hb : d = b <;> simp [hb]
    · rw [if_neg h, Memory.read_cons, Memory.read_cons, ih]
      by_cases hd : d = b
      · subst hd
        simp [Ne.symm h]
      · simp [hd]

theorem Memory.read_insert (m : Memory) (a b : Nat) (v : Byte) (h : m.read a = 0x00)
    (hne : ∀ c ∈ m, c.1 ≠ a) : (m.insert a v).read b = if a = b then v else m.read b := by
  induction m with
  | nil => simp [Memory.insert, Memory.read_cons]
  | cons c m ih =>
    obtain ⟨d, u⟩ := c
    have hd : d ≠ a := hne (d, u) (by simp)
    have htail : Memory.read m a = 0x00 := by simpa [Memory.read_cons, hd] using h
    have ih' := ih htail fun c hc => hne c (by simp [hc])
    by_cases hlt : a < d
    · simp [Memory.insert, hlt, Memory.read_cons]
    · rw [Memory.insert, if_neg hlt, Memory.read_cons, Memory.read_cons, ih']
      by_cases hdb : d = b
      · subst hdb
        simp [Ne.symm hd]
      · simp [hdb]

theorem Memory.ne_of_mem_erase {m : Memory} {a : Nat} {c : Host.Cell} (h : c ∈ m.erase a) : c.1 ≠ a := by
  simpa using (List.mem_filter.mp h).2

/-- A read after a write gives the byte written, and every other byte is as before, whatever the memory. -/
theorem Memory.read_write (m : Memory) (a b : Nat) (v : Byte) :
    (m.write a v).read b = if a = b then v else m.read b := by
  unfold Memory.write
  by_cases hv : v = 0x00
  · simp [hv, Memory.read_erase]
  · rw [if_neg hv, Memory.read_insert _ _ _ _ (by simp [Memory.read_erase])
      fun c hc => Memory.ne_of_mem_erase hc, Memory.read_erase]
    by_cases hab : a = b <;> simp [hab]

theorem Memory.read_xorByte (m : Memory) (a b : Nat) (v : Byte) :
    (m.xorByte a v).read b = if a = b then m.read a ^^^ v else m.read b := Memory.read_write _ _ _ _

/-- XorIn(a, P), byte by byte (00_scope.md R14): P[b − a] reaches address b, and no other byte changes. -/
theorem Memory.read_xorBytes (p : List Byte) (m : Memory) (a b : Nat) :
    (m.xorBytes a p).read b =
      if a ≤ b ∧ b < a + p.length then m.read b ^^^ p.getD (b - a) 0 else m.read b := by
  induction p generalizing m a with
  | nil =>
    rw [Memory.xorBytes, if_neg (by simp)]
  | cons v p ih =>
    rw [Memory.xorBytes, ih, Memory.read_xorByte, List.length_cons]
    rcases Nat.lt_trichotomy b a with h | h | h
    · rw [if_neg (by omega), if_neg (by omega), if_neg (by omega)]
    · subst h
      rw [if_neg (by omega), if_pos rfl, if_pos (by omega)]
      simp
    · have hs : b - a = (b - (a + 1)) + 1 := by omega
      by_cases hb : b < a + (p.length + 1)
      · rw [if_pos (by omega), if_neg (by omega), if_pos (by omega), hs]
        simp
      · rw [if_neg (by omega), if_neg (by omega), if_neg (by omega)]

/-- XorIn of nothing. -/
@[simp] theorem Memory.xorBytes_nil (m : Memory) (a : Nat) : m.xorBytes a [] = m := rfl

@[simp] theorem Memory.length_readBytes (m : Memory) (a n : Nat) : (m.readBytes a n).length = n := by
  simp [Memory.readBytes]

@[simp] theorem Memory.length_bytes (m : Memory) : m.bytes.length = 200 := Memory.length_readBytes m 0 200

theorem Memory.getD_readBytes (m : Memory) (a n i : Nat) :
    (m.readBytes a n).getD i 0 = if i < n then m.read (a + i) else 0 := by
  by_cases h : i < n <;> simp [Memory.readBytes, List.getD_eq_getElem?_getD, h]

/-- Byte a of all of S. -/
theorem Memory.byteAt_bytes (m : Memory) (a : Nat) (h : a < 200) : byteAt m.bytes a = m.read a := by
  rw [byteAt, Memory.bytes, Memory.getD_readBytes, if_pos h, Nat.zero_add]

theorem Memory.read_cellsFrom (bs : List Byte) (a b : Nat) :
    (Memory.cellsFrom a bs).read b = if a ≤ b then bs.getD (b - a) 0 else 0 := by
  induction bs generalizing a with
  | nil => simp [Memory.cellsFrom]
  | cons v bs ih =>
    rcases Nat.lt_trichotomy b a with h | h | h
    · rw [if_neg (by omega)]
      by_cases hv : v = 0x00
      · rw [Memory.cellsFrom, if_pos hv, ih, if_neg (by omega)]
      · rw [Memory.cellsFrom, if_neg hv, Memory.read_cons, if_neg (by omega), ih, if_neg (by omega)]
    · subst h
      by_cases hv : v = 0x00
      · rw [Memory.cellsFrom, if_pos hv, ih, if_neg (by omega)]
        simp [hv]
      · rw [Memory.cellsFrom, if_neg hv, Memory.read_cons]
        simp
    · have hs : b - a = (b - (a + 1)) + 1 := by omega
      by_cases hv : v = 0x00
      · rw [Memory.cellsFrom, if_pos hv, ih, if_pos (by omega), if_pos (by omega), hs]
        simp
      · rw [Memory.cellsFrom, if_neg hv, Memory.read_cons, if_neg (by omega), ih, if_pos (by omega),
          if_pos (by omega), hs]
        simp

/-- The state space made of a byte string reads that string. -/
theorem Memory.read_ofBytes (bs : List Byte) (a : Nat) : (Memory.ofBytes bs).read a = byteAt bs a := by
  simp [Memory.ofBytes, Memory.read_cellsFrom, byteAt]

/-- Permute() writes KeccakF of the 200 bytes of S (40_permutation.md R100). -/
theorem Memory.permute_eq (m : Memory) : m.permute = Memory.ofBytes (keccakF m.bytes) := by
  cases m <;> rfl

/-- S after Permute() reads KeccakF(S). -/
theorem Memory.read_permute (m : Memory) (a : Nat) : m.permute.read a = byteAt (keccakF m.bytes) a := by
  rw [Memory.permute_eq, Memory.read_ofBytes]

/-! S seen as its 200 bytes. -/

theorem Memory.bytes_getElem (m : Memory) {a : Nat} (h : a < m.bytes.length) : m.bytes[a] = m.read a := by
  simp [Memory.bytes, Memory.readBytes]

/-- Two state spaces that read alike hold the same bytes. -/
theorem Memory.bytes_congr {m n : Memory} (h : ∀ a, a < 200 → m.read a = n.read a) : m.bytes = n.bytes := by
  refine List.ext_getElem (by simp) fun a ha _ => ?_
  rw [Memory.bytes_getElem, Memory.bytes_getElem]
  exact h a (by simpa using ha)

/-- Permute() depends on the bytes of S alone. -/
theorem Memory.permute_congr {m n : Memory} (h : ∀ a, a < 200 → m.read a = n.read a) :
    m.permute = n.permute := by
  rw [Memory.permute_eq, Memory.permute_eq, Memory.bytes_congr h]

/-- A byte string of 200 bytes is what its state space holds. -/
theorem Memory.bytes_ofBytes {bs : List Byte} (h : bs.length = 200) : (Memory.ofBytes bs).bytes = bs := by
  refine List.ext_getElem (by simp [h]) fun a ha hb => ?_
  rw [Memory.bytes_getElem, Memory.read_ofBytes, byteAt, List.getD_eq_getElem?_getD, List.getElem?_eq_getElem hb]
  rfl

theorem length_keccakF (S : List Byte) : (keccakF S).length = 200 := by simp [keccakF, ofLanes]

/-- The 200 bytes after Permute() (40_permutation.md R100). -/
theorem Memory.bytes_permute (m : Memory) : m.permute.bytes = keccakF m.bytes := by
  rw [Memory.permute_eq, Memory.bytes_ofBytes (length_keccakF _)]

/-- The 200 bytes after one byte is XORed in (00_scope.md R14). -/
theorem Memory.bytes_xorByte (m : Memory) (a : Nat) (v : Byte) :
    (m.xorByte a v).bytes = m.bytes.modify a (· ^^^ v) := by
  refine List.ext_getElem (by simp) fun b hb _ => ?_
  rw [Memory.bytes_getElem, Memory.read_xorByte, List.getElem_modify, Memory.bytes_getElem]
  split <;> simp_all

/-! The canonical form. -/

theorem Memory.wfFrom_mono {lo lo' : Nat} (h : lo' ≤ lo) {m : Memory} (hm : Memory.wfFrom lo m = true) :
    Memory.wfFrom lo' m = true := by
  cases m with
  | nil => rfl
  | cons c m =>
    obtain ⟨a, v⟩ := c
    simp only [Memory.wfFrom, Bool.and_eq_true, decide_eq_true_eq] at hm ⊢
    exact ⟨⟨⟨by omega, hm.1.1.2⟩, hm.1.2⟩, hm.2⟩

theorem Memory.wfFrom_cons {lo a : Nat} {v : Byte} {m : Memory} :
    Memory.wfFrom lo ((a, v) :: m) = true ↔
      lo ≤ a ∧ a < 200 ∧ v ≠ 0x00 ∧ Memory.wfFrom (a + 1) m = true := by
  simp only [Memory.wfFrom, Bool.and_eq_true, decide_eq_true_eq, and_assoc]

theorem Memory.wfFrom_erase {lo : Nat} {m : Memory} (a : Nat) (h : Memory.wfFrom lo m = true) :
    Memory.wfFrom lo (m.erase a) = true := by
  induction m generalizing lo with
  | nil => rfl
  | cons c m ih =>
    obtain ⟨b, v⟩ := c
    obtain ⟨h1, h2, h3, h4⟩ := Memory.wfFrom_cons.mp h
    rw [Memory.erase_cons]
    split
    · exact Memory.wfFrom_mono (by omega) (ih h4)
    · exact Memory.wfFrom_cons.mpr ⟨h1, h2, h3, ih h4⟩

theorem Memory.wfFrom_insert {lo a : Nat} {v : Byte} {m : Memory} (h : Memory.wfFrom lo m = true)
    (hlo : lo ≤ a) (ha : a < 200) (hv : v ≠ 0x00) (hne : ∀ c ∈ m, c.1 ≠ a) :
    Memory.wfFrom lo (m.insert a v) = true := by
  induction m generalizing lo with
  | nil => exact Memory.wfFrom_cons.mpr ⟨hlo, ha, hv, rfl⟩
  | cons c m ih =>
    obtain ⟨b, u⟩ := c
    obtain ⟨h1, h2, h3, h4⟩ := Memory.wfFrom_cons.mp h
    have hb : b ≠ a := hne (b, u) (by simp)
    rw [Memory.insert]
    split
    · exact Memory.wfFrom_cons.mpr ⟨hlo, ha, hv, Memory.wfFrom_cons.mpr ⟨by omega, h2, h3, h4⟩⟩
    · exact Memory.wfFrom_cons.mpr
        ⟨h1, h2, h3, ih h4 (by omega) fun c hc => hne c (by simp [hc])⟩

/-- A write to an address of the state space keeps the canonical form. -/
theorem Memory.wf_write {m : Memory} {a : Nat} (v : Byte) (h : m.wf = true) (ha : a < 200) :
    (m.write a v).wf = true := by
  unfold Memory.wf Memory.write at *
  split
  · exact Memory.wfFrom_erase a h
  · exact Memory.wfFrom_insert (Memory.wfFrom_erase a h) (Nat.zero_le a) ha ‹_›
      fun c hc => Memory.ne_of_mem_erase hc

theorem Memory.wf_xorByte {m : Memory} {a : Nat} (v : Byte) (h : m.wf = true) (ha : a < 200) :
    (m.xorByte a v).wf = true := Memory.wf_write _ h ha

theorem Memory.wf_xorBytes {m : Memory} {a : Nat} {p : List Byte} (h : m.wf = true)
    (ha : a + p.length ≤ 200) : (m.xorBytes a p).wf = true := by
  induction p generalizing m a with
  | nil => exact h
  | cons v p ih =>
    rw [List.length_cons] at ha
    exact ih (Memory.wf_xorByte v h (by omega)) (by omega)

theorem Memory.wfFrom_cellsFrom (bs : List Byte) (a : Nat) (h : a + bs.length ≤ 200) :
    Memory.wfFrom a (Memory.cellsFrom a bs) = true := by
  induction bs generalizing a with
  | nil => rfl
  | cons v bs ih =>
    rw [List.length_cons] at h
    rw [Memory.cellsFrom]
    split
    · exact Memory.wfFrom_mono (by omega) (ih (a + 1) (by omega))
    · exact Memory.wfFrom_cons.mpr ⟨Nat.le_refl a, by omega, ‹_›, ih (a + 1) (by omega)⟩

/-- A string of at most 200 bytes makes a canonical state space. -/
theorem Memory.wf_ofBytes {bs : List Byte} (h : bs.length ≤ 200) : (Memory.ofBytes bs).wf = true :=
  Memory.wfFrom_cellsFrom bs 0 (by omega)

/-- Permute() leaves a canonical state space, whatever it found. -/
theorem Memory.wf_permute (m : Memory) : m.permute.wf = true := by
  rw [Memory.permute_eq]
  exact Memory.wf_ofBytes (Nat.le_of_eq (length_keccakF _))

@[simp] theorem Memory.wf_nil : Memory.wf [] = true := rfl

theorem Memory.read_of_wfFrom {lo : Nat} {m : Memory} (h : Memory.wfFrom lo m = true) {a : Nat}
    (ha : a < lo ∨ 200 ≤ a) : m.read a = 0x00 := by
  induction m generalizing lo with
  | nil => rfl
  | cons c m ih =>
    obtain ⟨b, v⟩ := c
    obtain ⟨h1, h2, _, h4⟩ := Memory.wfFrom_cons.mp h
    rw [Memory.read_cons, if_neg (by omega)]
    exact ih h4 (by omega)

/-- Canonical state spaces that read the same are the same data. -/
theorem Memory.ext_wfFrom {lo : Nat} {m n : Memory} (hm : Memory.wfFrom lo m = true)
    (hn : Memory.wfFrom lo n = true) (h : ∀ a, m.read a = n.read a) : m = n := by
  induction m generalizing lo n with
  | nil =>
    cases n with
    | nil => rfl
    | cons d n =>
      obtain ⟨b, u⟩ := d
      obtain ⟨_, _, h3, _⟩ := Memory.wfFrom_cons.mp hn
      exact absurd (h b).symm (by simpa [Memory.read_cons] using h3)
  | cons c m ih =>
    obtain ⟨a, v⟩ := c
    obtain ⟨a1, a2, a3, a4⟩ := Memory.wfFrom_cons.mp hm
    cases n with
    | nil => exact absurd (h a) (by simpa [Memory.read_cons] using a3)
    | cons d n =>
      obtain ⟨b, u⟩ := d
      obtain ⟨b1, b2, b3, b4⟩ := Memory.wfFrom_cons.mp hn
      have hab : a = b := by
        rcases Nat.lt_trichotomy a b with hlt | he | hlt
        · have := h a
          rw [Memory.read_cons, if_pos rfl, Memory.read_cons, if_neg (by omega),
            Memory.read_of_wfFrom b4 (by omega)] at this
          exact absurd this a3
        · exact he
        · have := h b
          rw [Memory.read_cons, if_neg (by omega), Memory.read_cons, if_pos rfl,
            Memory.read_of_wfFrom a4 (by omega)] at this
          exact absurd this.symm b3
      subst hab
      have hv : v = u := by simpa [Memory.read_cons] using h a
      subst hv
      rw [ih a4 b4 fun x => ?_]
      by_cases hx : a = x
      · rw [Memory.read_of_wfFrom a4 (by omega), Memory.read_of_wfFrom b4 (by omega)]
      · simpa [Memory.read_cons, hx] using h x

/-- Equal contents are equal data (the canonical form). -/
theorem Memory.ext_wf {m n : Memory} (hm : m.wf = true) (hn : n.wf = true)
    (h : ∀ a, m.read a = n.read a) : m = n := Memory.ext_wfFrom hm hn h

end Sys2Proof.Machine
end

