-- ==== Sys2Proof/Laws/State.lean ====
section
/-! SUPPORT. One lemma per field per update of the state, each true by unfolding, so that no proof unfolds a record update. -/

namespace Sys2Proof.Machine

/-! State.xorByte (00_scope.md R14). -/

@[simp] theorem State.xorByte_mem (s : State) (a : Nat) (v : Byte) :
    (s.xorByte a v).mem = s.mem.xorByte a v := rfl
@[simp] theorem State.xorByte_phase (s : State) (a : Nat) (v : Byte) :
    (s.xorByte a v).phase = s.phase := rfl
@[simp] theorem State.xorByte_err (s : State) (a : Nat) (v : Byte) :
    (s.xorByte a v).err = s.err := rfl
@[simp] theorem State.xorByte_rate (s : State) (a : Nat) (v : Byte) :
    (s.xorByte a v).rate = s.rate := rfl
@[simp] theorem State.xorByte_suffix (s : State) (a : Nat) (v : Byte) :
    (s.xorByte a v).suffix = s.suffix := rfl
@[simp] theorem State.xorByte_outlen (s : State) (a : Nat) (v : Byte) :
    (s.xorByte a v).outlen = s.outlen := rfl
@[simp] theorem State.xorByte_pos (s : State) (a : Nat) (v : Byte) :
    (s.xorByte a v).pos = s.pos := rfl
@[simp] theorem State.xorByte_sqzPos (s : State) (a : Nat) (v : Byte) :
    (s.xorByte a v).sqzPos = s.sqzPos := rfl
@[simp] theorem State.xorByte_outCnt (s : State) (a : Nat) (v : Byte) :
    (s.xorByte a v).outCnt = s.outCnt := rfl
@[simp] theorem State.xorByte_k (s : State) (a : Nat) (v : Byte) :
    (s.xorByte a v).k = s.k := rfl
@[simp] theorem State.xorByte_cmd (s : State) (a : Nat) (v : Byte) :
    (s.xorByte a v).cmd = s.cmd := rfl
@[simp] theorem State.xorByte_resp (s : State) (a : Nat) (v : Byte) :
    (s.xorByte a v).resp = s.resp := rfl
@[simp] theorem State.xorByte_resetLine (s : State) (a : Nat) (v : Byte) :
    (s.xorByte a v).resetLine = s.resetLine := rfl
@[simp] theorem State.xorByte_faultRecord (s : State) (a : Nat) (v : Byte) :
    (s.xorByte a v).faultRecord = s.faultRecord := rfl

/-! State.permute (R14). -/

@[simp] theorem State.permute_mem (s : State) :
    (s.permute).mem = s.mem.permute := rfl
@[simp] theorem State.permute_phase (s : State) :
    (s.permute).phase = s.phase := rfl
@[simp] theorem State.permute_err (s : State) :
    (s.permute).err = s.err := rfl
@[simp] theorem State.permute_rate (s : State) :
    (s.permute).rate = s.rate := rfl
@[simp] theorem State.permute_suffix (s : State) :
    (s.permute).suffix = s.suffix := rfl
@[simp] theorem State.permute_outlen (s : State) :
    (s.permute).outlen = s.outlen := rfl
@[simp] theorem State.permute_pos (s : State) :
    (s.permute).pos = s.pos := rfl
@[simp] theorem State.permute_sqzPos (s : State) :
    (s.permute).sqzPos = s.sqzPos := rfl
@[simp] theorem State.permute_outCnt (s : State) :
    (s.permute).outCnt = s.outCnt := rfl
@[simp] theorem State.permute_k (s : State) :
    (s.permute).k = s.k := rfl
@[simp] theorem State.permute_cmd (s : State) :
    (s.permute).cmd = s.cmd := rfl
@[simp] theorem State.permute_resp (s : State) :
    (s.permute).resp = s.resp := rfl
@[simp] theorem State.permute_resetLine (s : State) :
    (s.permute).resetLine = s.resetLine := rfl
@[simp] theorem State.permute_faultRecord (s : State) :
    (s.permute).faultRecord = s.faultRecord := rfl

/-! State.newInstance (43_hash_instance.md R160). -/

@[simp] theorem State.newInstance_mem (s : State) (r x o : Byte) :
    (s.newInstance r x o).mem = [] := rfl
@[simp] theorem State.newInstance_phase (s : State) (r x o : Byte) :
    (s.newInstance r x o).phase = .absorbing := rfl
@[simp] theorem State.newInstance_err (s : State) (r x o : Byte) :
    (s.newInstance r x o).err = s.err := rfl
@[simp] theorem State.newInstance_rate (s : State) (r x o : Byte) :
    (s.newInstance r x o).rate = r := rfl
@[simp] theorem State.newInstance_suffix (s : State) (r x o : Byte) :
    (s.newInstance r x o).suffix = x := rfl
@[simp] theorem State.newInstance_outlen (s : State) (r x o : Byte) :
    (s.newInstance r x o).outlen = o := rfl
@[simp] theorem State.newInstance_pos (s : State) (r x o : Byte) :
    (s.newInstance r x o).pos = 0 := rfl
@[simp] theorem State.newInstance_sqzPos (s : State) (r x o : Byte) :
    (s.newInstance r x o).sqzPos = 0 := rfl
@[simp] theorem State.newInstance_outCnt (s : State) (r x o : Byte) :
    (s.newInstance r x o).outCnt = 0 := rfl
@[simp] theorem State.newInstance_k (s : State) (r x o : Byte) :
    (s.newInstance r x o).k = s.k := rfl
@[simp] theorem State.newInstance_cmd (s : State) (r x o : Byte) :
    (s.newInstance r x o).cmd = s.cmd := rfl
@[simp] theorem State.newInstance_resp (s : State) (r x o : Byte) :
    (s.newInstance r x o).resp = s.resp := rfl
@[simp] theorem State.newInstance_resetLine (s : State) (r x o : Byte) :
    (s.newInstance r x o).resetLine = s.resetLine := rfl
@[simp] theorem State.newInstance_faultRecord (s : State) (r x o : Byte) :
    (s.newInstance r x o).faultRecord = s.faultRecord := rfl

/-! State.initK (R163). -/

@[simp] theorem State.initK_mem (s : State) :
    (s.initK).mem = [] := rfl
@[simp] theorem State.initK_phase (s : State) :
    (s.initK).phase = .absorbing := rfl
@[simp] theorem State.initK_err (s : State) :
    (s.initK).err = s.err := rfl
@[simp] theorem State.initK_rate (s : State) :
    (s.initK).rate = Config.kshakeRate := rfl
@[simp] theorem State.initK_suffix (s : State) :
    (s.initK).suffix = Config.kshakeSuffix := rfl
@[simp] theorem State.initK_outlen (s : State) :
    (s.initK).outlen = 40 := rfl
@[simp] theorem State.initK_pos (s : State) :
    (s.initK).pos = 0 := rfl
@[simp] theorem State.initK_sqzPos (s : State) :
    (s.initK).sqzPos = 0 := rfl
@[simp] theorem State.initK_outCnt (s : State) :
    (s.initK).outCnt = 0 := rfl
@[simp] theorem State.initK_k (s : State) :
    (s.initK).k = s.k := rfl
@[simp] theorem State.initK_cmd (s : State) :
    (s.initK).cmd = s.cmd := rfl
@[simp] theorem State.initK_resp (s : State) :
    (s.initK).resp = s.resp := rfl
@[simp] theorem State.initK_resetLine (s : State) :
    (s.initK).resetLine = s.resetLine := rfl
@[simp] theorem State.initK_faultRecord (s : State) :
    (s.initK).faultRecord = s.faultRecord := rfl

/-! State.succeed (60_exceptions.md R201). -/

@[simp] theorem State.succeed_mem (s : State) (d : List Byte) :
    (s.succeed d).mem = s.mem := rfl
@[simp] theorem State.succeed_phase (s : State) (d : List Byte) :
    (s.succeed d).phase = s.phase := rfl
@[simp] theorem State.succeed_err (s : State) (d : List Byte) :
    (s.succeed d).err = s.err := rfl
@[simp] theorem State.succeed_rate (s : State) (d : List Byte) :
    (s.succeed d).rate = s.rate := rfl
@[simp] theorem State.succeed_suffix (s : State) (d : List Byte) :
    (s.succeed d).suffix = s.suffix := rfl
@[simp] theorem State.succeed_outlen (s : State) (d : List Byte) :
    (s.succeed d).outlen = s.outlen := rfl
@[simp] theorem State.succeed_pos (s : State) (d : List Byte) :
    (s.succeed d).pos = s.pos := rfl
@[simp] theorem State.succeed_sqzPos (s : State) (d : List Byte) :
    (s.succeed d).sqzPos = s.sqzPos := rfl
@[simp] theorem State.succeed_outCnt (s : State) (d : List Byte) :
    (s.succeed d).outCnt = s.outCnt := rfl
@[simp] theorem State.succeed_k (s : State) (d : List Byte) :
    (s.succeed d).k = s.k + 1 := rfl
@[simp] theorem State.succeed_cmd (s : State) (d : List Byte) :
    (s.succeed d).cmd = s.cmd := rfl
@[simp] theorem State.succeed_resp (s : State) (d : List Byte) :
    (s.succeed d).resp = s.resp ++ 0x00 :: d := rfl
@[simp] theorem State.succeed_resetLine (s : State) (d : List Byte) :
    (s.succeed d).resetLine = s.resetLine := rfl
@[simp] theorem State.succeed_faultRecord (s : State) (d : List Byte) :
    (s.succeed d).faultRecord = s.faultRecord := rfl

/-! State.raise (R203). -/

@[simp] theorem State.raise_mem (s : State) (c : ErrorCode) :
    (s.raise c).mem = s.mem := rfl
@[simp] theorem State.raise_phase (s : State) (c : ErrorCode) :
    (s.raise c).phase = s.phase := rfl
@[simp] theorem State.raise_err (s : State) (c : ErrorCode) :
    (s.raise c).err = stickyErr s.err c := rfl
@[simp] theorem State.raise_rate (s : State) (c : ErrorCode) :
    (s.raise c).rate = s.rate := rfl
@[simp] theorem State.raise_suffix (s : State) (c : ErrorCode) :
    (s.raise c).suffix = s.suffix := rfl
@[simp] theorem State.raise_outlen (s : State) (c : ErrorCode) :
    (s.raise c).outlen = s.outlen := rfl
@[simp] theorem State.raise_pos (s : State) (c : ErrorCode) :
    (s.raise c).pos = s.pos := rfl
@[simp] theorem State.raise_sqzPos (s : State) (c : ErrorCode) :
    (s.raise c).sqzPos = s.sqzPos := rfl
@[simp] theorem State.raise_outCnt (s : State) (c : ErrorCode) :
    (s.raise c).outCnt = s.outCnt := rfl
@[simp] theorem State.raise_k (s : State) (c : ErrorCode) :
    (s.raise c).k = s.k + 1 := rfl
@[simp] theorem State.raise_cmd (s : State) (c : ErrorCode) :
    (s.raise c).cmd = s.cmd := rfl
@[simp] theorem State.raise_resp (s : State) (c : ErrorCode) :
    (s.raise c).resp = s.resp ++ [codeByte c] := rfl
@[simp] theorem State.raise_resetLine (s : State) (c : ErrorCode) :
    (s.raise c).resetLine = s.resetLine := rfl
@[simp] theorem State.raise_faultRecord (s : State) (c : ErrorCode) :
    (s.raise c).faultRecord = stickyFault s.faultRecord c := rfl

/-! State.padAndSwitch (42_sponge.md R143). -/

@[simp] theorem State.padAndSwitch_mem (s : State) :
    (s.padAndSwitch).mem = ((s.mem.xorByte s.pos.toNat s.suffix).xorByte (s.rate.toNat - 1) 0x80).permute := rfl
@[simp] theorem State.padAndSwitch_phase (s : State) :
    (s.padAndSwitch).phase = .squeezing := rfl
@[simp] theorem State.padAndSwitch_err (s : State) :
    (s.padAndSwitch).err = s.err := rfl
@[simp] theorem State.padAndSwitch_rate (s : State) :
    (s.padAndSwitch).rate = s.rate := rfl
@[simp] theorem State.padAndSwitch_suffix (s : State) :
    (s.padAndSwitch).suffix = s.suffix := rfl
@[simp] theorem State.padAndSwitch_outlen (s : State) :
    (s.padAndSwitch).outlen = s.outlen := rfl
@[simp] theorem State.padAndSwitch_pos (s : State) :
    (s.padAndSwitch).pos = 0 := rfl
@[simp] theorem State.padAndSwitch_sqzPos (s : State) :
    (s.padAndSwitch).sqzPos = 0 := rfl
@[simp] theorem State.padAndSwitch_outCnt (s : State) :
    (s.padAndSwitch).outCnt = 0 := rfl
@[simp] theorem State.padAndSwitch_k (s : State) :
    (s.padAndSwitch).k = s.k := rfl
@[simp] theorem State.padAndSwitch_cmd (s : State) :
    (s.padAndSwitch).cmd = s.cmd := rfl
@[simp] theorem State.padAndSwitch_resp (s : State) :
    (s.padAndSwitch).resp = s.resp := rfl
@[simp] theorem State.padAndSwitch_resetLine (s : State) :
    (s.padAndSwitch).resetLine = s.resetLine := rfl
@[simp] theorem State.padAndSwitch_faultRecord (s : State) :
    (s.padAndSwitch).faultRecord = s.faultRecord := rfl

/-! State.countSqueezed (R146). -/

@[simp] theorem State.countSqueezed_mem (s : State) (n : Nat) :
    (s.countSqueezed n).mem = s.mem := rfl
@[simp] theorem State.countSqueezed_phase (s : State) (n : Nat) :
    (s.countSqueezed n).phase = phaseAfterSqueeze s.phase (saturatingAdd s.outCnt n) s.outlen := rfl
@[simp] theorem State.countSqueezed_err (s : State) (n : Nat) :
    (s.countSqueezed n).err = s.err := rfl
@[simp] theorem State.countSqueezed_rate (s : State) (n : Nat) :
    (s.countSqueezed n).rate = s.rate := rfl
@[simp] theorem State.countSqueezed_suffix (s : State) (n : Nat) :
    (s.countSqueezed n).suffix = s.suffix := rfl
@[simp] theorem State.countSqueezed_outlen (s : State) (n : Nat) :
    (s.countSqueezed n).outlen = s.outlen := rfl
@[simp] theorem State.countSqueezed_pos (s : State) (n : Nat) :
    (s.countSqueezed n).pos = s.pos := rfl
@[simp] theorem State.countSqueezed_sqzPos (s : State) (n : Nat) :
    (s.countSqueezed n).sqzPos = s.sqzPos := rfl
@[simp] theorem State.countSqueezed_outCnt (s : State) (n : Nat) :
    (s.countSqueezed n).outCnt = saturatingAdd s.outCnt n := rfl
@[simp] theorem State.countSqueezed_k (s : State) (n : Nat) :
    (s.countSqueezed n).k = s.k := rfl
@[simp] theorem State.countSqueezed_cmd (s : State) (n : Nat) :
    (s.countSqueezed n).cmd = s.cmd := rfl
@[simp] theorem State.countSqueezed_resp (s : State) (n : Nat) :
    (s.countSqueezed n).resp = s.resp := rfl
@[simp] theorem State.countSqueezed_resetLine (s : State) (n : Nat) :
    (s.countSqueezed n).resetLine = s.resetLine := rfl
@[simp] theorem State.countSqueezed_faultRecord (s : State) (n : Nat) :
    (s.countSqueezed n).faultRecord = s.faultRecord := rfl

/-! State.placeNext. -/

@[simp] theorem State.placeNext_mem (s : State) (bs : List Byte) :
    (s.placeNext bs).mem = s.mem := rfl
@[simp] theorem State.placeNext_phase (s : State) (bs : List Byte) :
    (s.placeNext bs).phase = s.phase := rfl
@[simp] theorem State.placeNext_err (s : State) (bs : List Byte) :
    (s.placeNext bs).err = s.err := rfl
@[simp] theorem State.placeNext_rate (s : State) (bs : List Byte) :
    (s.placeNext bs).rate = s.rate := rfl
@[simp] theorem State.placeNext_suffix (s : State) (bs : List Byte) :
    (s.placeNext bs).suffix = s.suffix := rfl
@[simp] theorem State.placeNext_outlen (s : State) (bs : List Byte) :
    (s.placeNext bs).outlen = s.outlen := rfl
@[simp] theorem State.placeNext_pos (s : State) (bs : List Byte) :
    (s.placeNext bs).pos = s.pos := rfl
@[simp] theorem State.placeNext_sqzPos (s : State) (bs : List Byte) :
    (s.placeNext bs).sqzPos = s.sqzPos := rfl
@[simp] theorem State.placeNext_outCnt (s : State) (bs : List Byte) :
    (s.placeNext bs).outCnt = s.outCnt := rfl
@[simp] theorem State.placeNext_k (s : State) (bs : List Byte) :
    (s.placeNext bs).k = s.k := rfl
@[simp] theorem State.placeNext_cmd (s : State) (bs : List Byte) :
    (s.placeNext bs).cmd = bs ++ s.cmd := rfl
@[simp] theorem State.placeNext_resp (s : State) (bs : List Byte) :
    (s.placeNext bs).resp = s.resp := rfl
@[simp] theorem State.placeNext_resetLine (s : State) (bs : List Byte) :
    (s.placeNext bs).resetLine = false := rfl
@[simp] theorem State.placeNext_faultRecord (s : State) (bs : List Byte) :
    (s.placeNext bs).faultRecord = s.faultRecord := rfl

/-! State.sendBytes (30_encoding.md R75). -/

@[simp] theorem State.sendBytes_mem (s : State) (bs : List Byte) :
    (s.sendBytes bs).mem = s.mem := rfl
@[simp] theorem State.sendBytes_phase (s : State) (bs : List Byte) :
    (s.sendBytes bs).phase = s.phase := rfl
@[simp] theorem State.sendBytes_err (s : State) (bs : List Byte) :
    (s.sendBytes bs).err = s.err := rfl
@[simp] theorem State.sendBytes_rate (s : State) (bs : List Byte) :
    (s.sendBytes bs).rate = s.rate := rfl
@[simp] theorem State.sendBytes_suffix (s : State) (bs : List Byte) :
    (s.sendBytes bs).suffix = s.suffix := rfl
@[simp] theorem State.sendBytes_outlen (s : State) (bs : List Byte) :
    (s.sendBytes bs).outlen = s.outlen := rfl
@[simp] theorem State.sendBytes_pos (s : State) (bs : List Byte) :
    (s.sendBytes bs).pos = s.pos := rfl
@[simp] theorem State.sendBytes_sqzPos (s : State) (bs : List Byte) :
    (s.sendBytes bs).sqzPos = s.sqzPos := rfl
@[simp] theorem State.sendBytes_outCnt (s : State) (bs : List Byte) :
    (s.sendBytes bs).outCnt = s.outCnt := rfl
@[simp] theorem State.sendBytes_k (s : State) (bs : List Byte) :
    (s.sendBytes bs).k = s.k := rfl
@[simp] theorem State.sendBytes_cmd (s : State) (bs : List Byte) :
    (s.sendBytes bs).cmd = s.cmd ++ bs := rfl
@[simp] theorem State.sendBytes_resp (s : State) (bs : List Byte) :
    (s.sendBytes bs).resp = s.resp := rfl
@[simp] theorem State.sendBytes_resetLine (s : State) (bs : List Byte) :
    (s.sendBytes bs).resetLine = s.resetLine := rfl
@[simp] theorem State.sendBytes_faultRecord (s : State) (bs : List Byte) :
    (s.sendBytes bs).faultRecord = s.faultRecord := rfl

/-! State.send (60_exceptions.md R216). -/

@[simp] theorem State.send_mem (s : State) (f : Frame) :
    (s.send f).mem = s.mem := rfl
@[simp] theorem State.send_phase (s : State) (f : Frame) :
    (s.send f).phase = s.phase := rfl
@[simp] theorem State.send_err (s : State) (f : Frame) :
    (s.send f).err = s.err := rfl
@[simp] theorem State.send_rate (s : State) (f : Frame) :
    (s.send f).rate = s.rate := rfl
@[simp] theorem State.send_suffix (s : State) (f : Frame) :
    (s.send f).suffix = s.suffix := rfl
@[simp] theorem State.send_outlen (s : State) (f : Frame) :
    (s.send f).outlen = s.outlen := rfl
@[simp] theorem State.send_pos (s : State) (f : Frame) :
    (s.send f).pos = s.pos := rfl
@[simp] theorem State.send_sqzPos (s : State) (f : Frame) :
    (s.send f).sqzPos = s.sqzPos := rfl
@[simp] theorem State.send_outCnt (s : State) (f : Frame) :
    (s.send f).outCnt = s.outCnt := rfl
@[simp] theorem State.send_k (s : State) (f : Frame) :
    (s.send f).k = s.k := rfl
@[simp] theorem State.send_cmd (s : State) (f : Frame) :
    (s.send f).cmd = s.cmd ++ f.bytes := rfl
@[simp] theorem State.send_resp (s : State) (f : Frame) :
    (s.send f).resp = s.resp := rfl
@[simp] theorem State.send_resetLine (s : State) (f : Frame) :
    (s.send f).resetLine = s.resetLine := rfl
@[simp] theorem State.send_faultRecord (s : State) (f : Frame) :
    (s.send f).faultRecord = s.faultRecord := rfl

/-! State.assertReset (R216). -/

@[simp] theorem State.assertReset_mem (s : State) :
    (s.assertReset).mem = s.mem := rfl
@[simp] theorem State.assertReset_phase (s : State) :
    (s.assertReset).phase = s.phase := rfl
@[simp] theorem State.assertReset_err (s : State) :
    (s.assertReset).err = s.err := rfl
@[simp] theorem State.assertReset_rate (s : State) :
    (s.assertReset).rate = s.rate := rfl
@[simp] theorem State.assertReset_suffix (s : State) :
    (s.assertReset).suffix = s.suffix := rfl
@[simp] theorem State.assertReset_outlen (s : State) :
    (s.assertReset).outlen = s.outlen := rfl
@[simp] theorem State.assertReset_pos (s : State) :
    (s.assertReset).pos = s.pos := rfl
@[simp] theorem State.assertReset_sqzPos (s : State) :
    (s.assertReset).sqzPos = s.sqzPos := rfl
@[simp] theorem State.assertReset_outCnt (s : State) :
    (s.assertReset).outCnt = s.outCnt := rfl
@[simp] theorem State.assertReset_k (s : State) :
    (s.assertReset).k = s.k := rfl
@[simp] theorem State.assertReset_cmd (s : State) :
    (s.assertReset).cmd = s.cmd := rfl
@[simp] theorem State.assertReset_resp (s : State) :
    (s.assertReset).resp = s.resp := rfl
@[simp] theorem State.assertReset_resetLine (s : State) :
    (s.assertReset).resetLine = true := rfl
@[simp] theorem State.assertReset_faultRecord (s : State) :
    (s.assertReset).faultRecord = s.faultRecord := rfl

/-! State.takeReset (70_reset_and_hazards.md R230): only the fault record is kept. -/

@[simp] theorem State.takeReset_mem (s : State) : s.takeReset.mem = [] := rfl
@[simp] theorem State.takeReset_phase (s : State) : s.takeReset.phase = .idle := rfl
@[simp] theorem State.takeReset_err (s : State) : s.takeReset.err = 0x00 := rfl
@[simp] theorem State.takeReset_rate (s : State) : s.takeReset.rate = 0 := rfl
@[simp] theorem State.takeReset_suffix (s : State) : s.takeReset.suffix = 0x00 := rfl
@[simp] theorem State.takeReset_outlen (s : State) : s.takeReset.outlen = 0 := rfl
@[simp] theorem State.takeReset_pos (s : State) : s.takeReset.pos = 0 := rfl
@[simp] theorem State.takeReset_sqzPos (s : State) : s.takeReset.sqzPos = 0 := rfl
@[simp] theorem State.takeReset_outCnt (s : State) : s.takeReset.outCnt = 0 := rfl
@[simp] theorem State.takeReset_k (s : State) : s.takeReset.k = 0 := rfl
@[simp] theorem State.takeReset_cmd (s : State) : s.takeReset.cmd = [] := rfl
@[simp] theorem State.takeReset_resp (s : State) : s.takeReset.resp = [] := rfl
@[simp] theorem State.takeReset_resetLine (s : State) : s.takeReset.resetLine = false := rfl
@[simp] theorem State.takeReset_faultRecord (s : State) : s.takeReset.faultRecord = s.faultRecord := rfl

/-! State.reset (R230). -/

@[simp] theorem State.reset_mem : State.reset.mem = [] := rfl
@[simp] theorem State.reset_phase : State.reset.phase = .idle := rfl
@[simp] theorem State.reset_err : State.reset.err = 0x00 := rfl
@[simp] theorem State.reset_rate : State.reset.rate = 0 := rfl
@[simp] theorem State.reset_suffix : State.reset.suffix = 0x00 := rfl
@[simp] theorem State.reset_outlen : State.reset.outlen = 0 := rfl
@[simp] theorem State.reset_pos : State.reset.pos = 0 := rfl
@[simp] theorem State.reset_sqzPos : State.reset.sqzPos = 0 := rfl
@[simp] theorem State.reset_outCnt : State.reset.outCnt = 0 := rfl
@[simp] theorem State.reset_k : State.reset.k = 0 := rfl
@[simp] theorem State.reset_cmd : State.reset.cmd = [] := rfl
@[simp] theorem State.reset_resp : State.reset.resp = [] := rfl
@[simp] theorem State.reset_resetLine : State.reset.resetLine = false := rfl
@[simp] theorem State.reset_faultRecord : State.reset.faultRecord = none := rfl

end Sys2Proof.Machine
end

