-- ==== Sys2Proof/Laws/Sponge.lean ====
section
/-! SUPPORT. The sponge's loops: what they leave alone, where their accesses fall, how they compose, and that they keep
the canonical form (42_sponge.md R140 to R146). -/

namespace Sys2Proof.Machine

/-! One absorbed byte, and AbsorbBytes (R140). -/

/-- Everything one absorbed byte does. -/
theorem State.absorbByte_eq (s : State) (v : Byte) : s.absorbByte v =
    { s with
      mem := if s.pos + 1 = s.rate then (s.mem.xorByte s.pos.toNat v).permute
        else s.mem.xorByte s.pos.toNat v,
      pos := nextPos s.rate s.pos } := by
  unfold State.absorbByte nextPos
  split <;> simp [State.xorByte, State.permute]

@[simp] theorem State.absorbBytes_nil (s : State) : s.absorbBytes [] = s := rfl

theorem State.absorbBytes_cons (s : State) (v : Byte) (p : List Byte) :
    s.absorbBytes (v :: p) = (s.absorbByte v).absorbBytes p := rfl

/-- "AbsorbBytes is a left fold over bytes" (R142). -/
theorem State.absorbBytes_append (s : State) (p q : List Byte) :
    s.absorbBytes (p ++ q) = (s.absorbBytes p).absorbBytes q := List.foldl_append

/-- AbsorbBytes writes S and POS, and nothing else. -/
theorem State.absorbBytes_frame (p : List Byte) (s : State) :
    s.absorbBytes p = { s with mem := (s.absorbBytes p).mem, pos := (s.absorbBytes p).pos } := by
  induction p generalizing s with
  | nil => rfl
  | cons v p ih =>
    rw [State.absorbBytes_cons, ih (s.absorbByte v), State.absorbByte_eq]

@[simp] theorem State.absorbBytes_phase (s : State) (p : List Byte) : (s.absorbBytes p).phase = s.phase := by
  rw [State.absorbBytes_frame]
@[simp] theorem State.absorbBytes_err (s : State) (p : List Byte) : (s.absorbBytes p).err = s.err := by
  rw [State.absorbBytes_frame]
@[simp] theorem State.absorbBytes_rate (s : State) (p : List Byte) : (s.absorbBytes p).rate = s.rate := by
  rw [State.absorbBytes_frame]
@[simp] theorem State.absorbBytes_suffix (s : State) (p : List Byte) :
    (s.absorbBytes p).suffix = s.suffix := by rw [State.absorbBytes_frame]
@[simp] theorem State.absorbBytes_outlen (s : State) (p : List Byte) :
    (s.absorbBytes p).outlen = s.outlen := by rw [State.absorbBytes_frame]
@[simp] theorem State.absorbBytes_sqzPos (s : State) (p : List Byte) :
    (s.absorbBytes p).sqzPos = s.sqzPos := by rw [State.absorbBytes_frame]
@[simp] theorem State.absorbBytes_outCnt (s : State) (p : List Byte) :
    (s.absorbBytes p).outCnt = s.outCnt := by rw [State.absorbBytes_frame]
@[simp] theorem State.absorbBytes_k (s : State) (p : List Byte) : (s.absorbBytes p).k = s.k := by
  rw [State.absorbBytes_frame]
@[simp] theorem State.absorbBytes_cmd (s : State) (p : List Byte) : (s.absorbBytes p).cmd = s.cmd := by
  rw [State.absorbBytes_frame]
@[simp] theorem State.absorbBytes_resp (s : State) (p : List Byte) : (s.absorbBytes p).resp = s.resp := by
  rw [State.absorbBytes_frame]
@[simp] theorem State.absorbBytes_resetLine (s : State) (p : List Byte) :
    (s.absorbBytes p).resetLine = s.resetLine := by rw [State.absorbBytes_frame]
@[simp] theorem State.absorbBytes_faultRecord (s : State) (p : List Byte) :
    (s.absorbBytes p).faultRecord = s.faultRecord := by rw [State.absorbBytes_frame]

/-! The absorb position. -/

/-- The next position of a legal one, as numbers. -/
theorem nextPos_toNat {rate pos : Byte} (h : pos.toNat < rate.toNat) :
    (nextPos rate pos).toNat = (pos.toNat + 1) % rate.toNat := by
  have hr := rate.isLt
  have hadd : (pos + 1).toNat = pos.toNat + 1 := by
    rw [BitVec.toNat_add, show (1 : Byte).toNat = 1 from rfl]
    omega
  unfold nextPos
  split
  · rename_i he
    rw [← he, hadd, Nat.mod_self]
    rfl
  · rename_i he
    have : pos.toNat + 1 ≠ rate.toNat := fun e => he (BitVec.eq_of_toNat_eq (hadd.trans e))
    rw [hadd, Nat.mod_eq_of_lt (by omega)]

theorem nextPos_lt {rate pos : Byte} (h : pos.toNat < rate.toNat) :
    (nextPos rate pos).toNat < rate.toNat := by
  rw [nextPos_toNat h]
  exact Nat.mod_lt _ (by omega)

/-- POS after n absorbed bytes is (POS + n) mod RATE (R148). -/
theorem State.absorbBytes_pos_toNat (p : List Byte) (s : State) (h : s.pos.toNat < s.rate.toNat) :
    (s.absorbBytes p).pos.toNat = (s.pos.toNat + p.length) % s.rate.toNat := by
  induction p generalizing s with
  | nil => simpa using (Nat.mod_eq_of_lt h).symm
  | cons v p ih =>
    have hr : (s.absorbByte v).rate = s.rate := by rw [State.absorbByte_eq]
    have hp : (s.absorbByte v).pos = nextPos s.rate s.pos := by rw [State.absorbByte_eq]
    rw [State.absorbBytes_cons, ih _ (by rw [hr, hp]; exact nextPos_lt h), hr, hp, nextPos_toNat h,
      Nat.mod_add_mod, List.length_cons]
    congr 1
    omega

theorem State.absorbBytes_pos_lt (p : List Byte) (s : State) (h : s.pos.toNat < s.rate.toNat) :
    (s.absorbBytes p).pos.toNat < s.rate.toNat := by
  rw [State.absorbBytes_pos_toNat p s h]
  exact Nat.mod_lt _ (by omega)

/-- While no block fills, AbsorbBytes XORs the payload in at POS (R140, R141). -/
theorem State.absorbBytes_mem_within (p : List Byte) (s : State) (h : s.pos.toNat + p.length < s.rate.toNat) :
    (s.absorbBytes p).mem = s.mem.xorBytes s.pos.toNat p := by
  induction p generalizing s with
  | nil => rfl
  | cons v p ih =>
    rw [List.length_cons] at h
    have hr := s.rate.isLt
    have hadd : (s.pos + 1).toNat = s.pos.toNat + 1 := by
      rw [BitVec.toNat_add, show (1 : Byte).toNat = 1 from rfl]
      omega
    have hne : s.pos + 1 ≠ s.rate := fun e => by
      have := congrArg BitVec.toNat e
      omega
    rw [State.absorbBytes_cons, State.absorbByte_eq, if_neg hne, nextPos, if_neg hne]
    rw [ih _ (by simp only [hadd]; omega)]
    simp only [hadd, Memory.xorBytes]

/-! Where the accesses fall (41_adapter.md R134). -/

theorem absorbInState_of_legal {rate : Byte} (hr : rate.toNat ≤ 200) (n : Nat) {pos : Byte}
    (h : pos.toNat < rate.toNat) : absorbInState rate pos n = true := by
  induction n generalizing pos with
  | zero => rfl
  | succ n ih =>
    simp only [absorbInState, Bool.and_eq_true, decide_eq_true_eq]
    exact ⟨by omega, ih (nextPos_lt h)⟩

/-- The addresses of two ABSORBs are those of one. -/
theorem absorbInState_append (s : State) (p q : List Byte) :
    absorbInState s.rate s.pos (p ++ q).length =
      (absorbInState s.rate s.pos p.length &&
        absorbInState (s.absorbBytes p).rate (s.absorbBytes p).pos q.length) := by
  induction p generalizing s with
  | nil => rfl
  | cons v p ih =>
    have hr : (s.absorbByte v).rate = s.rate := by rw [State.absorbByte_eq]
    have hp : (s.absorbByte v).pos = nextPos s.rate s.pos := by rw [State.absorbByte_eq]
    have := ih (s.absorbByte v)
    rw [hr, hp] at this
    rw [List.cons_append, List.length_cons, absorbInState, this, State.absorbBytes_cons, List.length_cons,
      absorbInState, Bool.and_assoc]

theorem padInState_of_legal {rate pos : Byte} (hr : rate.toNat ≤ 200) (h : pos.toNat < rate.toNat) :
    padInState rate pos = true := by
  simp only [padInState, Bool.and_eq_true, decide_eq_true_eq]
  omega

/-- The next squeeze address of a legal window. -/
theorem squeezeFrom_lt {rate q : Byte} (h1 : 1 ≤ rate.toNat) (h : q.toNat ≤ rate.toNat) :
    (squeezeFrom rate q).toNat < rate.toNat := by
  unfold squeezeFrom
  split
  · exact h1
  · rename_i he
    have : q.toNat ≠ rate.toNat := fun e => he (BitVec.eq_of_toNat_eq e)
    omega

theorem squeezeFrom_succ_toNat {rate q : Byte} (h1 : 1 ≤ rate.toNat) (h : q.toNat ≤ rate.toNat) :
    (squeezeFrom rate q + 1).toNat = q.toNat % rate.toNat + 1 := by
  have hr := rate.isLt
  have hlt := squeezeFrom_lt h1 h
  rw [BitVec.toNat_add, show (1 : Byte).toNat = 1 from rfl, Nat.mod_eq_of_lt (by omega)]
  congr 1
  unfold squeezeFrom
  split
  · rename_i he
    rw [he, Nat.mod_self]
    rfl
  · rename_i he
    have : q.toNat ≠ rate.toNat := fun e => he (BitVec.eq_of_toNat_eq e)
    rw [Nat.mod_eq_of_lt (by omega)]

theorem squeezeFrom_succ_le {rate q : Byte} (h1 : 1 ≤ rate.toNat) (h : q.toNat ≤ rate.toNat) :
    (squeezeFrom rate q + 1).toNat ≤ rate.toNat := by
  rw [squeezeFrom_succ_toNat h1 h]
  exact Nat.mod_lt _ (by omega)

theorem squeezeInState_of_legal {rate : Byte} (h1 : 1 ≤ rate.toNat) (hr : rate.toNat ≤ 200) (n : Nat)
    {q : Byte} (h : q.toNat ≤ rate.toNat) : squeezeInState rate q n = true := by
  induction n generalizing q with
  | zero => rfl
  | succ n ih =>
    simp only [squeezeInState, Bool.and_eq_true, decide_eq_true_eq]
    have := squeezeFrom_lt h1 h
    exact ⟨by omega, ih (squeezeFrom_succ_le h1 h)⟩

/-! One squeezed byte, and the loop of SqueezeBytes (R146). -/

/-- Everything the lazy permutation does. -/
theorem State.squeezeReady_eq (s : State) : s.squeezeReady =
    { s with
      mem := if s.sqzPos = s.rate then s.mem.permute else s.mem, sqzPos := squeezeFrom s.rate s.sqzPos } := by
  unfold State.squeezeReady squeezeFrom
  split <;> simp [State.permute]

/-- Everything one squeezed byte does. -/
theorem State.squeezeByte_eq (s : State) : s.squeezeByte =
    ((if s.sqzPos = s.rate then s.mem.permute else s.mem).read (squeezeFrom s.rate s.sqzPos).toNat,
     { s with
       mem := if s.sqzPos = s.rate then s.mem.permute else s.mem,
       sqzPos := squeezeFrom s.rate s.sqzPos + 1 }) := by
  rw [State.squeezeByte, State.squeezeReady_eq]

@[simp] theorem State.squeezeLoop_zero (s : State) : State.squeezeLoop 0 s = ([], s) := rfl

theorem State.squeezeLoop_succ (n : Nat) (s : State) : State.squeezeLoop (n + 1) s =
    (s.squeezeByte.1 :: (State.squeezeLoop n s.squeezeByte.2).1, (State.squeezeLoop n s.squeezeByte.2).2) :=
  rfl

@[simp] theorem State.squeezeLoop_length (n : Nat) (s : State) : (State.squeezeLoop n s).1.length = n := by
  induction n generalizing s with
  | zero => rfl
  | succ n ih => rw [State.squeezeLoop_succ, List.length_cons, ih]

/-- Squeezing n and then m bytes is squeezing n + m (R146). -/
theorem State.squeezeLoop_add (n m : Nat) (s : State) : State.squeezeLoop (n + m) s =
    ((State.squeezeLoop n s).1 ++ (State.squeezeLoop m (State.squeezeLoop n s).2).1,
     (State.squeezeLoop m (State.squeezeLoop n s).2).2) := by
  induction n generalizing s with
  | zero => simp
  | succ n ih => rw [Nat.add_right_comm, State.squeezeLoop_succ, ih, State.squeezeLoop_succ, List.cons_append]

/-- The loop writes S and SQZ_POS, and nothing else. -/
theorem State.squeezeLoop_frame (n : Nat) (s : State) : (State.squeezeLoop n s).2 =
    { s with mem := (State.squeezeLoop n s).2.mem, sqzPos := (State.squeezeLoop n s).2.sqzPos } := by
  induction n generalizing s with
  | zero => rfl
  | succ n ih => rw [State.squeezeLoop_succ, ih, State.squeezeByte_eq]

@[simp] theorem State.squeezeLoop_phase (n : Nat) (s : State) :
    (State.squeezeLoop n s).2.phase = s.phase := by rw [State.squeezeLoop_frame]
@[simp] theorem State.squeezeLoop_err (n : Nat) (s : State) : (State.squeezeLoop n s).2.err = s.err := by
  rw [State.squeezeLoop_frame]
@[simp] theorem State.squeezeLoop_rate (n : Nat) (s : State) : (State.squeezeLoop n s).2.rate = s.rate := by
  rw [State.squeezeLoop_frame]
@[simp] theorem State.squeezeLoop_suffix (n : Nat) (s : State) :
    (State.squeezeLoop n s).2.suffix = s.suffix := by rw [State.squeezeLoop_frame]
@[simp] theorem State.squeezeLoop_outlen (n : Nat) (s : State) :
    (State.squeezeLoop n s).2.outlen = s.outlen := by rw [State.squeezeLoop_frame]
@[simp] theorem State.squeezeLoop_pos (n : Nat) (s : State) : (State.squeezeLoop n s).2.pos = s.pos := by
  rw [State.squeezeLoop_frame]
@[simp] theorem State.squeezeLoop_outCnt (n : Nat) (s : State) :
    (State.squeezeLoop n s).2.outCnt = s.outCnt := by rw [State.squeezeLoop_frame]
@[simp] theorem State.squeezeLoop_k (n : Nat) (s : State) : (State.squeezeLoop n s).2.k = s.k := by
  rw [State.squeezeLoop_frame]
@[simp] theorem State.squeezeLoop_cmd (n : Nat) (s : State) : (State.squeezeLoop n s).2.cmd = s.cmd := by
  rw [State.squeezeLoop_frame]
@[simp] theorem State.squeezeLoop_resp (n : Nat) (s : State) : (State.squeezeLoop n s).2.resp = s.resp := by
  rw [State.squeezeLoop_frame]
@[simp] theorem State.squeezeLoop_resetLine (n : Nat) (s : State) :
    (State.squeezeLoop n s).2.resetLine = s.resetLine := by rw [State.squeezeLoop_frame]
@[simp] theorem State.squeezeLoop_faultRecord (n : Nat) (s : State) :
    (State.squeezeLoop n s).2.faultRecord = s.faultRecord := by rw [State.squeezeLoop_frame]

theorem State.squeezeLoop_sqzPos_le (n : Nat) (s : State) (h1 : 1 ≤ s.rate.toNat)
    (h : s.sqzPos.toNat ≤ s.rate.toNat) : (State.squeezeLoop n s).2.sqzPos.toNat ≤ s.rate.toNat := by
  induction n generalizing s with
  | zero => exact h
  | succ n ih =>
    rw [State.squeezeLoop_succ, State.squeezeByte_eq]
    exact ih _ h1 (squeezeFrom_succ_le h1 h)

theorem State.squeezeBytes_length (s : State) (n : Nat) : (s.squeezeBytes n).1.length = n :=
  State.squeezeLoop_length n s

@[simp] theorem State.squeezeBytes_fst (s : State) (n : Nat) :
    (s.squeezeBytes n).1 = (State.squeezeLoop n s).1 := rfl

@[simp] theorem State.squeezeBytes_snd (s : State) (n : Nat) :
    (s.squeezeBytes n).2 = (State.squeezeLoop n s).2.countSqueezed n := rfl

theorem saturatingAdd_toNat (c : BitVec 16) (n : Nat) :
    (saturatingAdd c n).toNat = min 65535 (c.toNat + n) := by
  rw [saturatingAdd, BitVec.toNat_ofNat]
  omega

/-! What the loops depend on: S, RATE and the position, and no other field. -/

theorem State.absorbBytes_congr (p : List Byte) {s t : State} (hm : s.mem = t.mem) (hp : s.pos = t.pos)
    (hr : s.rate = t.rate) :
    (s.absorbBytes p).mem = (t.absorbBytes p).mem ∧ (s.absorbBytes p).pos = (t.absorbBytes p).pos := by
  induction p generalizing s t with
  | nil => exact ⟨hm, hp⟩
  | cons v p ih =>
    rw [State.absorbBytes_cons, State.absorbBytes_cons, State.absorbByte_eq, State.absorbByte_eq]
    exact ih (by rw [hm, hp, hr]) (by rw [hp, hr]) hr

theorem State.padAndSwitch_congr {s t : State} (hm : s.mem = t.mem) (hp : s.pos = t.pos)
    (hr : s.rate = t.rate) (hs : s.suffix = t.suffix) : s.padAndSwitch.mem = t.padAndSwitch.mem := by
  rw [State.padAndSwitch_mem, State.padAndSwitch_mem, hm, hp, hr, hs]

theorem State.squeezeLoop_congr (n : Nat) {s t : State} (hm : s.mem = t.mem) (hq : s.sqzPos = t.sqzPos)
    (hr : s.rate = t.rate) :
    (State.squeezeLoop n s).1 = (State.squeezeLoop n t).1 ∧
    (State.squeezeLoop n s).2.mem = (State.squeezeLoop n t).2.mem ∧
    (State.squeezeLoop n s).2.sqzPos = (State.squeezeLoop n t).2.sqzPos := by
  induction n generalizing s t with
  | zero => exact ⟨rfl, hm, hq⟩
  | succ n ih =>
    have hb : s.squeezeByte.1 = t.squeezeByte.1 := by rw [State.squeezeByte_eq, State.squeezeByte_eq, hm, hq, hr]
    have hmem : s.squeezeByte.2.mem = t.squeezeByte.2.mem := by
      rw [State.squeezeByte_eq, State.squeezeByte_eq, hm, hq, hr]
    have hpos : s.squeezeByte.2.sqzPos = t.squeezeByte.2.sqzPos := by
      rw [State.squeezeByte_eq, State.squeezeByte_eq, hq, hr]
    have hrate : s.squeezeByte.2.rate = t.squeezeByte.2.rate := by
      rw [State.squeezeByte_eq, State.squeezeByte_eq, hr]
    obtain ⟨h1, h2, h3⟩ := ih hmem hpos hrate
    exact ⟨by rw [State.squeezeLoop_succ, State.squeezeLoop_succ, hb, h1], h2, h3⟩

/-! The canonical form of S (20_memory.md R50). -/

theorem State.wf_absorbBytes (p : List Byte) (s : State) (hr : s.rate.toNat ≤ 200)
    (hp : s.pos.toNat < s.rate.toNat) (h : s.mem.wf = true) : (s.absorbBytes p).mem.wf = true := by
  induction p generalizing s with
  | nil => exact h
  | cons v p ih =>
    rw [State.absorbBytes_cons, State.absorbByte_eq]
    refine ih _ hr (nextPos_lt hp) ?_
    change (if s.pos + 1 = s.rate then (s.mem.xorByte s.pos.toNat v).permute
      else s.mem.xorByte s.pos.toNat v).wf = true
    split
    · exact Memory.wf_permute _
    · exact Memory.wf_xorByte v h (by omega)

theorem State.wf_squeezeLoop (n : Nat) (s : State) (h : s.mem.wf = true) :
    (State.squeezeLoop n s).2.mem.wf = true := by
  induction n generalizing s with
  | zero => exact h
  | succ n ih =>
    rw [State.squeezeLoop_succ, State.squeezeByte_eq]
    refine ih _ ?_
    change (if s.sqzPos = s.rate then s.mem.permute else s.mem).wf = true
    split
    · exact Memory.wf_permute _
    · exact h

theorem State.wf_padAndSwitch (s : State) : s.padAndSwitch.mem.wf = true := by
  rw [State.padAndSwitch_mem]
  exact Memory.wf_permute _

/-! The KSHAKE320 profile (00_scope.md R9). -/

theorem kshakeRate_toNat : Config.kshakeRate.toNat = Config.kshakeRateLess1.val + 1 := by
  have := Config.kshakeRateLess1.isLt
  rw [Config.kshakeRate, BitVec.toNat_ofNat]
  omega

theorem one_le_kshakeRate : 1 ≤ Config.kshakeRate.toNat := by
  rw [kshakeRate_toNat]
  omega

theorem kshakeRate_le : Config.kshakeRate.toNat ≤ 120 := by
  have := Config.kshakeRateLess1.isLt
  rw [kshakeRate_toNat]
  omega

end Sys2Proof.Machine
end

