-- ==== Sys2Proof/Laws/Exec.lean ====
section
/-! SUPPORT. What each meaning can do, said once: which check fails, the state a success leaves, and what every command has in
common (60_exceptions.md R201 to R203, R209). -/

namespace Sys2Proof.Machine

/-! Reading the engine's state through one update. -/

theorem SameInstance.refl (s : State) : SameInstance s s := ⟨rfl, ⟨rfl, rfl, rfl⟩, ⟨rfl, rfl, rfl⟩⟩

/-- The whole effect of taking an error (R203). -/
theorem State.raise_failed (s : State) (c : ErrorCode) : Failed s (s.raise c) (codeByte c) := by
  refine ⟨fun _ => rfl, SameInstance.refl s, ⟨rfl, rfl⟩, ⟨rfl, rfl⟩, ?_, ?_, ?_, ?_⟩
  · exact fun h => if_pos h
  · exact fun h => if_neg h
  · intro h; simp [stickyFault, h]
  · intro h
    cases hf : s.faultRecord with
    | none => exact absurd hf h
    | some first => simp [stickyFault, hf]

theorem codeByte_ne_zero (c : ErrorCode) : codeByte c ≠ 0x00 := by cases c <;> decide

theorem codeByte_injective {c d : ErrorCode} (h : codeByte c = codeByte d) : c = d := by
  cases c <;> cases d <;> first | rfl | exact absurd h (by decide)

/-- The clean entry is the entry premise at the reset state's S and registers (70_reset_and_hazards.md R235). -/
theorem State.entry_of_cleanEntry {s : State} (h : s.cleanEntry) : s.entry State.reset.arch := by
  subst h
  exact ⟨rfl, rfl, rfl, rfl⟩

/-! The checks (60_exceptions.md R202). -/

theorem absorbingCheck_eq (p : Phase) :
    absorbingCheck p = if p = .absorbing then none else some .invalidState := by cases p <;> rfl

theorem squeezingCheck_eq (p : Phase) :
    squeezingCheck p = if p = .idle ∨ p = .absorbing then some .invalidState else none := by
  cases p <;> simp [squeezingCheck]

theorem finalCheck_eq (p : Phase) : finalCheck p =
    if p = .idle then some .invalidState
    else if p = .absorbing then none else some .alreadyFinalized := by cases p <;> simp [finalCheck]

theorem rateCheck_eq (rate : Byte) : rateCheck rate =
    if 1 ≤ rate.toNat ∧ rate.toNat ≤ 200 then none else some .outOfRange := by
  unfold rateCheck
  split <;> split <;> first | rfl | omega

theorem windowCheck_eq (offset : Byte) (len : Nat) : windowCheck offset len =
    if offset.toNat + len ≤ 200 then none else some .outOfRange := by
  unfold windowCheck
  split <;> split <;> first | rfl | omega

/-! One lemma per meaning that can fail: everything it answers. -/

/-- INIT (R160, R161). -/
theorem execInit_eq (rate suffix outlen : Byte) (s : State) : execInit rate suffix outlen s =
    .next (if 1 ≤ rate.toNat ∧ rate.toNat ≤ 200 then (s.newInstance rate suffix outlen).succeed []
      else s.raise .outOfRange) := by
  unfold execInit
  rw [rateCheck_eq]
  split <;> rename_i h <;> split at h <;> simp_all

/-- ABSORB (R141). -/
theorem execAbsorb_eq (p : List Byte) (s : State) : execAbsorb p s =
    if s.phase = .absorbing then
      if absorbInState s.rate s.pos p.length then .next ((s.absorbBytes p).succeed [])
      else .fault .noSuchStateByte
    else .next (s.raise .invalidState) := by
  unfold execAbsorb
  rw [absorbingCheck_eq]
  by_cases h : s.phase = .absorbing <;> simp [h]

/-- PAD (R144). -/
theorem execPad_eq (s : State) : execPad s =
    if s.phase = .absorbing then
      if padInState s.rate s.pos then .next (s.padAndSwitch.succeed []) else .fault .noSuchStateByte
    else .next (s.raise .invalidState) := by
  unfold execPad
  rw [absorbingCheck_eq]
  by_cases h : s.phase = .absorbing <;> simp [h]

/-- SQUEEZE (R147). -/
theorem execSqueeze_eq (n : BitVec 16) (s : State) : execSqueeze n s =
    if s.phase = .idle ∨ s.phase = .absorbing then .next (s.raise .invalidState)
    else if squeezeInState s.rate s.sqzPos n.toNat then
      .next ((s.squeezeBytes n.toNat).2.succeed (s.squeezeBytes n.toNat).1)
    else .fault .noSuchStateByte := by
  unfold execSqueeze
  rw [squeezingCheck_eq]
  by_cases h : s.phase = .idle ∨ s.phase = .absorbing <;> simp [h]

/-- FINAL (R165). -/
theorem execFinal_eq (s : State) : execFinal s =
    if s.phase = .idle then .next (s.raise .invalidState)
    else if s.phase = .absorbing then
      if padInState s.rate s.pos && squeezeInState s.rate 0 s.outlen.toNat then
        .next ((s.padAndSwitch.squeezeBytes s.outlen.toNat).2.succeed
          (s.padAndSwitch.squeezeBytes s.outlen.toNat).1)
      else .fault .noSuchStateByte
    else .next (s.raise .alreadyFinalized) := by
  unfold execFinal
  rw [finalCheck_eq]
  by_cases h : s.phase = .idle
  · simp [h]
  · by_cases h' : s.phase = .absorbing <;> simp [h, h']

/-- XOR_IN (R130, R131). -/
theorem execXorIn_eq (offset : Byte) (p : List Byte) (s : State) : execXorIn offset p s =
    .next (if offset.toNat + p.length ≤ 200 then
      { s with mem := s.mem.xorBytes offset.toNat p }.succeed [] else s.raise .outOfRange) := by
  unfold execXorIn
  rw [windowCheck_eq]
  by_cases h : offset.toNat + p.length ≤ 200 <;> simp [h]

/-- EXTRACT (R130, R133). -/
theorem execExtract_eq (offset len : Byte) (s : State) : execExtract offset len s =
    .next (if offset.toNat + len.toNat ≤ 200 then
      s.succeed (s.mem.readBytes offset.toNat len.toNat) else s.raise .outOfRange) := by
  unfold execExtract
  rw [windowCheck_eq]
  by_cases h : offset.toNat + len.toNat ≤ 200 <;> simp [h]

/-! What every command has in common. -/

/-- No arm of `exec` refuses. -/
theorem exec_ne_refused (i : Instr) (s : State) (r : Refusal) : exec i s ≠ .refused r := by
  cases i with
  | status => exact nofun
  | clrErr => exact nofun
  | init rate suffix outlen => exact fun h => by simp [exec, execInit_eq] at h
  | initK => exact nofun
  | absorb p => exact fun h => by simp only [exec, execAbsorb_eq] at h; split_ifs at h
  | pad => exact fun h => by simp only [exec, execPad_eq] at h; split_ifs at h
  | squeeze n => exact fun h => by simp only [exec, execSqueeze_eq] at h; split_ifs at h
  | final => exact fun h => by simp only [exec, execFinal_eq] at h; split_ifs at h
  | hash p => exact nofun
  | xorIn offset p => exact fun h => by simp [exec, execXorIn_eq] at h
  | extract offset len => exact fun h => by simp [exec, execExtract_eq] at h
  | permute => exact nofun

/-- What a success keeps of the state before it: the channels, the reset line, the frame index and the fault record, until
`State.succeed` adds the response and advances the index. -/
def Carried (s u : State) : Prop :=
  u.resp = s.resp ∧ u.k = s.k ∧ u.cmd = s.cmd ∧ u.resetLine = s.resetLine ∧ u.faultRecord = s.faultRecord

/-- Everything a command that answers a next state can have done: it took the one error its checks give, or it succeeded
with as much data as its rule says. -/
theorem exec_cases {i : Instr} {s t : State} (h : exec i s = .next t) :
    (∃ c, responseCode i s = codeByte c ∧ t = s.raise c) ∨
    (responseCode i s = 0x00 ∧
      ∃ u data, t = u.succeed data ∧ data.length = dataLength i s ∧ Carried s u) := by
  cases i with
  | status =>
    cases h
    exact .inr ⟨rfl, s, _, rfl, rfl, rfl, rfl, rfl, rfl, rfl⟩
  | clrErr =>
    cases h
    exact .inr ⟨rfl, _, _, rfl, rfl, rfl, rfl, rfl, rfl, rfl⟩
  | init rate suffix outlen =>
    simp only [exec, execInit_eq, Host.Outcome.next.injEq] at h
    split_ifs at h with hr <;> subst h
    · exact .inr ⟨if_pos hr, _, _, rfl, rfl, rfl, rfl, rfl, rfl, rfl⟩
    · exact .inl ⟨.outOfRange, if_neg hr, rfl⟩
  | initK =>
    cases h
    exact .inr ⟨rfl, _, _, rfl, rfl, rfl, rfl, rfl, rfl, rfl⟩
  | absorb p =>
    simp only [exec, execAbsorb_eq] at h
    split_ifs at h with hp hi <;> cases h
    · exact .inr ⟨if_pos hp, _, _, rfl, rfl, by simp [Carried]⟩
    · exact .inl ⟨.invalidState, if_neg hp, rfl⟩
  | pad =>
    simp only [exec, execPad_eq] at h
    split_ifs at h with hp hi <;> cases h
    · exact .inr ⟨if_pos hp, _, _, rfl, rfl, rfl, rfl, rfl, rfl, rfl⟩
    · exact .inl ⟨.invalidState, if_neg hp, rfl⟩
  | squeeze n =>
    simp only [exec, execSqueeze_eq] at h
    split_ifs at h with hp hi <;> cases h
    · exact .inl ⟨.invalidState, if_pos hp, rfl⟩
    · exact .inr ⟨if_neg hp, _, _, rfl, by simp [dataLength], by simp [Carried]⟩
  | final =>
    simp only [exec, execFinal_eq] at h
    split_ifs at h with h0 hp hi <;> cases h
    · exact .inl ⟨.invalidState, if_pos h0, rfl⟩
    · exact .inr ⟨by simp [responseCode, hp], _, _, rfl, by simp [dataLength], by simp [Carried]⟩
    · exact .inl ⟨.alreadyFinalized, by simp [responseCode, h0, hp, codeByte], rfl⟩
  | hash p =>
    have ht : t = ((s.hashPadded p).squeezeBytes 40).2.succeed ((s.hashPadded p).squeezeBytes 40).1 :=
      (Host.Outcome.next.inj h).symm
    exact .inr ⟨rfl, _, _, ht, State.squeezeBytes_length _ _, by simp [Carried, State.hashPadded, State.initK]⟩
  | xorIn offset p =>
    simp only [exec, execXorIn_eq, Host.Outcome.next.injEq] at h
    split_ifs at h with hr <;> subst h
    · exact .inr ⟨if_pos hr, _, _, rfl, rfl, rfl, rfl, rfl, rfl, rfl⟩
    · exact .inl ⟨.outOfRange, if_neg hr, rfl⟩
  | extract offset len =>
    simp only [exec, execExtract_eq, Host.Outcome.next.injEq] at h
    split_ifs at h with hr <;> subst h
    · exact .inr ⟨if_pos hr, s, _, rfl, by simp [dataLength], rfl, rfl, rfl, rfl, rfl⟩
    · exact .inl ⟨.outOfRange, if_neg hr, rfl⟩
  | permute =>
    cases h
    exact .inr ⟨rfl, _, _, rfl, rfl, rfl, rfl, rfl, rfl, rfl⟩

end Sys2Proof.Machine
end

