-- ==== Sys2Proof/Laws/Keccak.lean ====
section
/-! SUPPORT. Lanes by position, and the bytes of lanes (10_state.md R21; 40_permutation.md R101). -/

namespace Sys2Proof.Machine

/-- rotl64 is the core library's rotation (00_scope.md R12). -/
theorem rotl64_eq_rotateLeft (v : Lane) (n : Nat) : rotl64 v n = v.rotateLeft n := by
  apply BitVec.eq_of_getLsbD_eq
  intro j hj
  rw [rotl64, BitVec.getLsbD_rotateLeft]
  have hn := Nat.mod_lt n (by decide : 64 > 0)
  rcases Nat.eq_zero_or_pos (n % 64) with h0 | h0
  · simp [h0, hj]
  · have h1 : (64 - n % 64) % 64 = 64 - n % 64 := Nat.mod_eq_of_lt (by omega)
    simp only [BitVec.getLsbD_or, BitVec.getLsbD_shiftLeft, BitVec.getLsbD_ushiftRight, h1]
    by_cases hlt : j < n % 64
    · simp [hlt]
    · have : v.getLsbD (64 - n % 64 + j) = false := BitVec.getLsbD_of_ge _ _ (by omega)
      simp [hlt, this, hj]

/-- Lane (x, y) of a tabulated array. -/
theorem laneXY_tabulate (f : Nat → Nat → Lane) {x y : Nat} (hx : x < 5) (hy : y < 5) :
    laneXY (tabulate f) x y = f x y := by
  have hn : x % 5 + 5 * (y % 5) < 25 := by omega
  rw [laneXY, tabulate, List.getD_eq_getElem?_getD, List.getElem?_map, List.getElem?_range hn]
  simp only [Option.map_some, Option.getD_some]
  congr 1 <;> omega

/-- "Indices x and y are always taken mod 5" (R101). -/
theorem laneXY_mod (A : Lanes) (x y : Nat) : laneXY A (x % 5) (y % 5) = laneXY A x y := by
  simp [laneXY]

/-- Lane n of a byte string (R21). -/
theorem getD_toLanes (S : List Byte) {n : Nat} (h : n < 25) : (toLanes S).getD n 0 = laneOfBytes S n := by
  rw [toLanes, List.getD_eq_getElem?_getD, List.getElem?_map, List.getElem?_range h]
  rfl

/-- Byte a of the lanes (R21). -/
theorem byteAt_ofLanes (A : Lanes) {a : Nat} (h : a < 200) :
    byteAt (ofLanes A) a = (A.getD (a / 8) 0).extractLsb' (8 * (a % 8)) 8 := by
  rw [byteAt, ofLanes, List.getD_eq_getElem?_getD, List.getElem?_map, List.getElem?_range h]
  rfl

@[simp] theorem length_toLanes (S : List Byte) : (toLanes S).length = 25 := by simp [toLanes]

@[simp] theorem length_ofLanes (A : Lanes) : (ofLanes A).length = 200 := by simp [ofLanes]

@[simp] theorem length_tabulate (f : Nat → Nat → Lane) : (tabulate f).length = 25 := by simp [tabulate]

end Sys2Proof.Machine
end

