-- ==== Sys2Proof/Laws/PerInstr.lean ====
section
/-! SUPPORT. Statements made command by command. `FrameShape`: a command's frame is its four word bytes, the OP byte first,
and its payload, and a well-formed command's word announces exactly that payload (20_memory.md R51; 30_encoding.md R76). -/

namespace Sys2Proof.Laws.FrameShape

def Statement (i : Instr) : Prop :=
  (encode i).head? = some i.op.code ∧ (encode i).drop 4 = i.payload ∧
    (i.wellFormed = true → (encode i).length = 4 + payloadLen (commandWord i))

theorem of_commandWord (i : Instr) : Statement i := by
  refine ⟨?_, rfl, fun h => ?_⟩
  · simp [encode, wordBytes]
  · rw [payloadLen_commandWord h]
    simp [encode, wordBytes]
    omega

theorem status : Statement .status := of_commandWord _

theorem clrErr : Statement .clrErr := of_commandWord _

theorem init (rate suffix outlen : Byte) : Statement (.init rate suffix outlen) := of_commandWord _

theorem initK : Statement .initK := of_commandWord _

theorem absorb (payload : List Byte) : Statement (.absorb payload) := of_commandWord _

theorem pad : Statement .pad := of_commandWord _

theorem squeeze (n : BitVec 16) : Statement (.squeeze n) := of_commandWord _

theorem final : Statement .final := of_commandWord _

theorem hash (payload : List Byte) : Statement (.hash payload) := of_commandWord _

theorem xorIn (offset : Byte) (payload : List Byte) : Statement (.xorIn offset payload) := of_commandWord _

theorem extract (offset len : Byte) : Statement (.extract offset len) := of_commandWord _

theorem permute : Statement .permute := of_commandWord _

end Sys2Proof.Laws.FrameShape
end

