-- ==== Sys2Proof/Laws/Step.lean ====
section
/-! SUPPORT. What a step can do, said once: what `fetch` finds, and the four ways `step` answers a next state
(20_memory.md R55; 60_exceptions.md R215; 70_reset_and_hazards.md R231, R240). -/

namespace Sys2Proof.Machine

theorem decodeFrame_nil : decodeFrame [] = .incomplete := rfl

/-- With reset asserted `fetch` is the reset (R231). -/
theorem fetch_of_reset {s : State} (h : s.resetLine = true) : fetch s = fetchReset s := by simp [fetch, h]

/-- With reset released `fetch` is the decoder, or nothing where no byte is pending (R215). -/
theorem fetch_of_released {s : State} (h : s.resetLine = false) : fetch s =
    if s.cmd = [] then .idle else
      match decodeFrame s.cmd with
      | .instr i rest => .run i { s with cmd := rest }
      | .illegal r rest => .illegal r { s with cmd := rest }
      | .incomplete => .stuck .frameIncomplete := by
  cases hc : s.cmd with
  | nil => simp [fetch, h, fetchCommand, hc]
  | cons b bs => cases hd : decodeFrame (b :: bs) <;> simp [fetch, h, fetchCommand, hc, hd]

/-! The four ways a step goes on, and the three it does not. -/

theorem step_of_idle {s : State} (h : s.resetLine = false) (hc : s.cmd = []) : step s = .next s := by
  rw [step, fetch_of_released h, if_pos hc]

theorem step_of_instr {s : State} {i : Instr} {rest : List Byte} (h : s.resetLine = false)
    (hd : decodeFrame s.cmd = .instr i rest) : step s = exec i { s with cmd := rest } := by
  have hne : s.cmd ≠ [] := fun he => by simp [he, decodeFrame_nil] at hd
  rw [step, fetch_of_released h, if_neg hne, hd]

theorem step_of_illegal {s : State} {r : DecodeReject} {rest : List Byte} (h : s.resetLine = false)
    (hd : decodeFrame s.cmd = .illegal r rest) :
    step s = .next ({ s with cmd := rest }.raise .illegalCommand) := by
  have hne : s.cmd ≠ [] := fun he => by simp [he, decodeFrame_nil] at hd
  rw [step, fetch_of_released h, if_neg hne, hd]

theorem step_of_incomplete {s : State} (h : s.resetLine = false) (hne : s.cmd ≠ [])
    (hd : decodeFrame s.cmd = .incomplete) : step s = .fault .frameIncomplete := by
  rw [step, fetch_of_released h, if_neg hne, hd]

/-- Reset asserted: it acts between two frames with every response byte read, and has no move else (R231). -/
theorem step_of_reset {s : State} (h : s.resetLine = true) : step s =
    if s.resp = [] then
      if noPartialFrame s.cmd = true then .next s.takeReset else .fault .resetWithinFrame
    else .fault .resetWithResponseUnread := by
  rw [step, fetch_of_reset h, fetchReset]
  by_cases hr : s.resp = [] <;> by_cases hp : noPartialFrame s.cmd = true <;> simp [hr, hp]

/-- Everything a step that answers a next state can have done. -/
theorem step_cases {s t : State} (h : step s = .next t) :
    (s.resetLine = false ∧ s.cmd = [] ∧ t = s) ∨
    (s.resetLine = true ∧ s.resp = [] ∧ noPartialFrame s.cmd = true ∧ t = s.takeReset) ∨
    (s.resetLine = false ∧ ∃ r rest, decodeFrame s.cmd = .illegal r rest ∧
      t = { s with cmd := rest }.raise .illegalCommand) ∨
    (s.resetLine = false ∧ ∃ i rest, decodeFrame s.cmd = .instr i rest ∧ exec i { s with cmd := rest } = .next t) := by
  by_cases hl : s.resetLine = true
  · rw [step_of_reset hl] at h
    split_ifs at h with hr hp
    exact .inr (.inl ⟨hl, hr, hp, by cases h; rfl⟩)
  · have hl : s.resetLine = false := eq_false_of_ne_true hl
    by_cases hc : s.cmd = []
    · rw [step_of_idle hl hc] at h
      exact .inl ⟨hl, hc, by cases h; rfl⟩
    · cases hd : decodeFrame s.cmd with
      | instr i rest => exact .inr (.inr (.inr ⟨hl, i, rest, rfl, by rwa [step_of_instr hl hd] at h⟩))
      | illegal r rest =>
        rw [step_of_illegal hl hd] at h
        exact .inr (.inr (.inl ⟨hl, r, rest, rfl, by cases h; rfl⟩))
      | incomplete =>
        rw [step_of_incomplete hl hc hd] at h
        cases h

/-- A frame placed with `placeNext` is what the next step takes. -/
theorem step_placeNext {s : State} {bs rest : List Byte} {i : Instr}
    (h : decodeFrame (bs ++ s.cmd) = .instr i rest) :
    step (s.placeNext bs) = exec i { s with cmd := rest, resetLine := false } :=
  step_of_instr rfl h

/-! Which bytes are whole frames (R76). -/

theorem length_wordBytes (w : Word) : (wordBytes w).length = 4 := rfl

/-- The decoder takes exactly the first frame off the channel. -/
theorem decodeFrame_bytes (f : Frame) (tail : List Byte) : decodeFrame (f.bytes ++ tail) =
    match decodeWord f.word f.payload with
    | .ok i => .instr i tail
    | .error r => .illegal r tail := decodeFrame_frame _ _ _ f.whole

/-- Where the decoder leaves a rest, the bytes are one frame and that rest. -/
theorem exists_frame_of_decodeFrame {bs : List Byte} (h : decodeFrame bs ≠ .incomplete) :
    ∃ (f : Frame) (tail : List Byte), bs = f.bytes ++ tail := by
  match bs, h with
  | b0 :: b1 :: b2 :: b3 :: tail, h =>
    by_cases hl : tail.length < payloadLen (wordOfBytes b0 b1 b2 b3)
    · exact absurd (by simp [decodeFrame, hl]) h
    · refine ⟨⟨wordOfBytes b0 b1 b2 b3, tail.take (payloadLen (wordOfBytes b0 b1 b2 b3)), ?_⟩,
        tail.drop (payloadLen (wordOfBytes b0 b1 b2 b3)), ?_⟩
      · rw [List.length_take]
        omega
      · simp [Frame.bytes, wordBytes_wordOfBytes]
  | [], h => exact absurd rfl h
  | [_], h => exact absurd rfl h
  | [_, _], h => exact absurd rfl h
  | [_, _, _], h => exact absurd rfl h

theorem wholeFrames_bytes (f : Frame) (tail : List Byte) (fuel : Nat) :
    wholeFrames (fuel + 1) (f.bytes ++ tail) = wholeFrames fuel tail := by
  have hd := decodeFrame_bytes f tail
  have hc : f.bytes ++ tail = opField f.word :: (f.bytes.tail ++ tail) := rfl
  rw [hc] at hd ⊢
  rw [wholeFrames, hd]
  cases decodeWord f.word f.payload <;> rfl

theorem length_bytes_pos (f : Frame) : 4 ≤ f.bytes.length := by
  rw [Frame.bytes, List.length_append, length_wordBytes]
  omega

/-- With fuel enough, `wholeFrames` holds of the bytes of frames and of nothing else. -/
theorem wholeFrames_iff {fuel : Nat} {bs : List Byte} (h : bs.length ≤ fuel) :
    wholeFrames fuel bs = true ↔ ∃ fs : List Frame, bs = (fs.map Frame.bytes).flatten := by
  induction fuel generalizing bs with
  | zero =>
    have hb : bs = [] := List.eq_nil_of_length_eq_zero (by omega)
    exact ⟨fun _ => ⟨[], hb⟩, fun _ => by rw [hb]; rfl⟩
  | succ fuel ih =>
    match bs with
    | [] => exact ⟨fun _ => ⟨[], rfl⟩, fun _ => rfl⟩
    | b :: rest =>
      by_cases hi : decodeFrame (b :: rest) = .incomplete
      · constructor
        · intro hw
          rw [wholeFrames, hi] at hw
          cases hw
        · rintro ⟨fs, hfs⟩
          match fs with
          | [] => cases hfs
          | f :: fs =>
            rw [hfs, List.map_cons, List.flatten_cons, decodeFrame_bytes] at hi
            cases hd : decodeWord f.word f.payload <;> rw [hd] at hi <;> cases hi
      · obtain ⟨f, tail, he⟩ := exists_frame_of_decodeFrame hi
        have hl := length_bytes_pos f
        have hlen : f.bytes.length + tail.length ≤ fuel + 1 := by
          rw [← List.length_append, ← he]
          exact h
        rw [he, wholeFrames_bytes, ih (bs := tail) (by omega)]
        constructor
        · rintro ⟨fs, rfl⟩
          exact ⟨f :: fs, rfl⟩
        · rintro ⟨fs, hfs⟩
          match fs with
          | [] =>
            have h0 : f.bytes.length + tail.length = 0 := by
              rw [← List.length_append, hfs]
              rfl
            omega
          | g :: fs =>
            rw [List.map_cons, List.flatten_cons] at hfs
            have hf := decodeFrame_bytes f tail
            have hg := decodeFrame_bytes g (fs.map Frame.bytes).flatten
            rw [hfs, hg] at hf
            exact ⟨fs, by
              cases h1 : decodeWord f.word f.payload <;> cases h2 : decodeWord g.word g.payload <;>
                rw [h1, h2] at hf <;> cases hf <;> rfl⟩

/-- The channel holds no partial frame exactly when its bytes are those of whole frames (R231, R235). -/
theorem noPartialFrame_iff (cmd : List Byte) :
    noPartialFrame cmd = true ↔ ∃ fs : List Frame, cmd = (fs.map Frame.bytes).flatten := wholeFrames_iff le_rfl

end Sys2Proof.Machine
end

