-- ==== Sys2Proof/Laws/Stream.lean ====
section
/-! SUPPORT. The sponge's loops on the 200 bytes of S, against the sponge function (42_sponge.md R140, R143, R146, R149): the
squeeze stream, the padded block, and whole blocks absorbed. -/

namespace Sys2Proof.Machine

/-! The windows of the squeeze stream (R146). -/

/-- Another window only adds bytes at the end. -/
theorem squeezeWindows_succ (r n : Nat) (T : List Byte) :
    ∃ W, squeezeWindows r (n + 1) T = squeezeWindows r n T ++ W := by
  induction n generalizing T with
  | zero => exact ⟨_, rfl⟩
  | succ n ih =>
    obtain ⟨W, hW⟩ := ih (keccakF T)
    exact ⟨W, by rw [squeezeWindows, hW, squeezeWindows, List.append_assoc]⟩

theorem length_squeezeWindows {r : Nat} (hr : r ≤ 200) (n : Nat) {T : List Byte} (hT : T.length = 200) :
    (squeezeWindows r n T).length = n * r := by
  induction n generalizing T with
  | zero => simp [squeezeWindows]
  | succ n ih =>
    rw [squeezeWindows, List.length_append, ih (length_keccakF _), List.length_take, hT, Nat.succ_mul]
    omega

/-- n windows of a legal rate hold n bytes, and one window more does not change them. -/
theorem take_squeezeWindows_succ {r : Nat} (h1 : 1 ≤ r) (hr : r ≤ 200) (n : Nat) {T : List Byte}
    (hT : T.length = 200) : (squeezeWindows r (n + 1) T).take n = (squeezeWindows r n T).take n := by
  obtain ⟨W, hW⟩ := squeezeWindows_succ r n T
  have := Nat.le_mul_of_pos_right n h1
  rw [hW, List.take_append_of_le_length (by rw [length_squeezeWindows hr n hT]; omega)]

/-! One squeezed byte, on a legal window (R146). -/

/-- A used-up window is permuted, and its first byte is emitted. -/
theorem State.squeezeByte_refill {s : State} (h : s.sqzPos = s.rate) :
    s.squeezeByte = (s.mem.permute.read 0, { s with mem := s.mem.permute, sqzPos := 1 }) := by
  rw [State.squeezeByte_eq, squeezeFrom, if_pos h, if_pos h]
  rfl

theorem State.squeezeByte_within {s : State} (h : s.sqzPos ≠ s.rate) :
    s.squeezeByte = (s.mem.read s.sqzPos.toNat, { s with sqzPos := s.sqzPos + 1 }) := by
  rw [State.squeezeByte_eq, squeezeFrom, if_neg h, if_neg h]

/-- What n squeezed bytes are, and the S and SQZ_POS they leave: the rest of the window, then the windows of KeccakF(S),
KeccakF(KeccakF(S)), and so on (R146, R148). -/
theorem State.squeezeLoop_stream (n : Nat) (s : State) (h1 : 1 ≤ s.rate.toNat) (hr : s.rate.toNat ≤ 200)
    (hq : s.sqzPos.toNat ≤ s.rate.toNat) :
    (State.squeezeLoop n s).1 = ((s.mem.bytes.take s.rate.toNat).drop s.sqzPos.toNat ++
      squeezeWindows s.rate.toNat n (keccakF s.mem.bytes)).take n ∧
    (State.squeezeLoop n s).2.mem.bytes =
      keccakF^[(s.sqzPos.toNat + n - 1) / s.rate.toNat] s.mem.bytes ∧
    (State.squeezeLoop n s).2.sqzPos.toNat =
      if n = 0 then s.sqzPos.toNat else (s.sqzPos.toNat + n - 1) % s.rate.toNat + 1 := by
  induction n generalizing s with
  | zero =>
    refine ⟨by simp, ?_, rfl⟩
    rw [Nat.div_eq_of_lt (by omega)]
    rfl
  | succ n ih =>
    rw [State.squeezeLoop_succ, if_neg (Nat.succ_ne_zero n)]
    by_cases he : s.sqzPos = s.rate
    · obtain ⟨a, b, c⟩ := ih { s with mem := s.mem.permute, sqzPos := 1 } h1 hr h1
      simp only [State.squeezeByte_refill he, show (1 : Byte).toNat = 1 from rfl, Memory.bytes_permute,
        Nat.add_sub_cancel_left] at a b c ⊢
      rw [he]
      refine ⟨?_, ?_, ?_⟩
      · have hlen := length_keccakF s.mem.bytes
        have hw : (keccakF s.mem.bytes).take s.rate.toNat =
            s.mem.permute.read 0 :: ((keccakF s.mem.bytes).take s.rate.toNat).drop 1 := by
          have h0 : 0 < ((keccakF s.mem.bytes).take s.rate.toNat).length := by
            rw [List.length_take]
            omega
          have h0' : 0 < (keccakF s.mem.bytes).length := by omega
          have hd := List.drop_eq_getElem_cons h0
          rw [List.drop_zero] at hd
          refine hd.trans ?_
          rw [List.getElem_take, Memory.read_permute, byteAt, List.getD_eq_getElem?_getD,
            List.getElem?_eq_getElem h0', Option.getD_some]
        rw [a, List.drop_of_length_le (i := s.rate.toNat) (by simp), List.nil_append, squeezeWindows, hw,
          List.cons_append, List.take_succ_cons, ← hw]
      · rw [b, show s.rate.toNat + (n + 1) - 1 = n + s.rate.toNat by omega, Nat.add_div_right _ h1,
          Function.iterate_succ_apply]
      · rw [c, show s.rate.toNat + (n + 1) - 1 = n + s.rate.toNat by omega, Nat.add_mod_right]
        split
        · rename_i h0
          rw [h0, Nat.zero_mod]
        · rfl
    · have hlt : s.sqzPos.toNat < s.rate.toNat :=
        Nat.lt_of_le_of_ne hq fun e => he (BitVec.eq_of_toNat_eq e)
      have hadd : (s.sqzPos + 1).toNat = s.sqzPos.toNat + 1 := by
        rw [BitVec.toNat_add, show (1 : Byte).toNat = 1 from rfl]
        omega
      obtain ⟨a, b, c⟩ := ih { s with sqzPos := s.sqzPos + 1 } h1 hr (by simp only [hadd]; omega)
      simp only [State.squeezeByte_within he, hadd] at a b c ⊢
      refine ⟨?_, ?_, ?_⟩
      · have hd : (s.mem.bytes.take s.rate.toNat).drop s.sqzPos.toNat = s.mem.read s.sqzPos.toNat ::
            (s.mem.bytes.take s.rate.toNat).drop (s.sqzPos.toNat + 1) := by
          rw [List.drop_eq_getElem_cons (by simp; omega), List.getElem_take, Memory.bytes_getElem]
        obtain ⟨W, hW⟩ := squeezeWindows_succ s.rate.toNat n (keccakF s.mem.bytes)
        have hle := Nat.le_mul_of_pos_right n h1
        rw [a, hd, List.cons_append, List.take_succ_cons, hW, ← List.append_assoc,
          List.take_append_of_le_length (l₂ := W)
            (by rw [List.length_append, length_squeezeWindows hr n (length_keccakF _)]; omega)]
      · rw [b, show s.sqzPos.toNat + 1 + n - 1 = s.sqzPos.toNat + (n + 1) - 1 by omega]
      · rw [c]
        split
        · rename_i h0
          rw [h0, Nat.mod_eq_of_lt (by omega)]
          omega
        · rw [show s.sqzPos.toNat + 1 + n - 1 = s.sqzPos.toNat + (n + 1) - 1 by omega]

/-! The padded block (R143). -/

theorem State.bytes_padAndSwitch (s : State) : s.padAndSwitch.mem.bytes =
    keccakF ((s.mem.bytes.modify s.pos.toNat (· ^^^ s.suffix)).modify (s.rate.toNat - 1) (· ^^^ 0x80)) := by
  rw [State.padAndSwitch_mem, Memory.bytes_permute, Memory.bytes_xorByte, Memory.bytes_xorByte]

/-! Absorbed blocks (R140, R149). -/

theorem getD_xorPrefix (T B : List Byte) (a : Nat) : byteAt (xorPrefix T B) a =
    if a < T.length then byteAt T a ^^^ byteAt B a else 0 := by
  induction T generalizing B a with
  | nil => cases B <;> simp [xorPrefix, byteAt]
  | cons t T ih =>
    cases B with
    | nil =>
      simp only [xorPrefix, byteAt, List.getD_nil]
      split
      · simp
      · rename_i h
        rw [List.getD_eq_default _ _ (by omega)]
    | cons b B =>
      cases a with
      | zero => simp [xorPrefix, byteAt]
      | succ a => simpa [xorPrefix, byteAt] using ih B a

theorem length_xorPrefix (T B : List Byte) : (xorPrefix T B).length = T.length := by
  induction T generalizing B with
  | nil => cases B <;> rfl
  | cons t T ih => cases B <;> simp [xorPrefix, ih]

/-- Bytes XORed in from address 0 on. -/
theorem Memory.bytes_xorBytes_zero (m : Memory) (p : List Byte) :
    (m.xorBytes 0 p).bytes = xorPrefix m.bytes p := by
  refine List.ext_getElem (by simp [length_xorPrefix]) fun a ha hb => ?_
  have ha' : a < 200 := by simpa using ha
  have := getD_xorPrefix m.bytes p a
  rw [byteAt, List.getD_eq_getElem?_getD, List.getElem?_eq_getElem hb, Option.getD_some,
    if_pos (by simpa using ha'), Memory.byteAt_bytes m a ha', byteAt] at this
  rw [Memory.bytes_getElem, Memory.read_xorBytes, this]
  split
  · simp
  · rename_i h
    rw [List.getD_eq_default _ _ (by omega)]
    simp

/-- A payload that exactly fills the window is XORed in, the block is permuted, and POS is 0. -/
theorem State.absorbBytes_block (p : List Byte) (s : State) (hp : p ≠ [])
    (h : s.pos.toNat + p.length = s.rate.toNat) :
    s.absorbBytes p = { s with mem := (s.mem.xorBytes s.pos.toNat p).permute, pos := 0 } := by
  induction p generalizing s with
  | nil => exact absurd rfl hp
  | cons v p ih =>
    rw [List.length_cons] at h
    have hr := s.rate.isLt
    have hadd : (s.pos + 1).toNat = s.pos.toNat + 1 := by
      rw [BitVec.toNat_add, show (1 : Byte).toNat = 1 from rfl]
      omega
    rw [State.absorbBytes_cons, State.absorbByte_eq]
    cases p with
    | nil =>
      have he : s.pos + 1 = s.rate := BitVec.eq_of_toNat_eq (by rw [hadd]; simpa using h)
      rw [State.absorbBytes_nil, if_pos he, nextPos, if_pos he]
      rfl
    | cons w p =>
      have hne : s.pos + 1 ≠ s.rate := fun e => by
        have := congrArg BitVec.toNat e
        rw [List.length_cons] at h
        omega
      rw [if_neg hne, nextPos, if_neg hne, ih _ (by simp) (by simp only [hadd]; omega)]
      simp only [hadd]
      rfl

/-- A message absorbed from the start of a window: its complete blocks, then the rest (R149). -/
theorem State.bytes_absorbBytes (s : State) (m : List Byte) (hpos : s.pos = 0) (h1 : 1 ≤ s.rate.toNat) :
    (s.absorbBytes m).mem.bytes =
      xorPrefix (absorbBlocks s.rate.toNat (m.length / s.rate.toNat) s.mem.bytes m)
        (m.drop (m.length / s.rate.toNat * s.rate.toNat)) := by
  generalize hn : m.length / s.rate.toNat = n
  induction n generalizing s m with
  | zero =>
    have hlt : m.length < s.rate.toNat := (Nat.div_eq_zero_iff_lt h1).mp hn
    rw [State.absorbBytes_mem_within m s (by rw [hpos]; simpa using hlt), hpos, Nat.zero_mul, List.drop_zero]
    exact Memory.bytes_xorBytes_zero s.mem m
  | succ n ih =>
    have hge : s.rate.toNat ≤ m.length := by
      rcases Nat.lt_or_ge m.length s.rate.toNat with h | h
      · rw [Nat.div_eq_of_lt h] at hn
        omega
      · exact h
    have hlen : (m.take s.rate.toNat).length = s.rate.toNat := by
      rw [List.length_take]
      omega
    have hblock := State.absorbBytes_block (m.take s.rate.toNat) s
      (fun e => by rw [e] at hlen; simp at hlen; omega) (by rw [hpos, hlen]; simp)
    rw [← List.take_append_drop s.rate.toNat m, State.absorbBytes_append, hblock, List.take_append_drop]
    have hdiv : (m.drop s.rate.toNat).length / s.rate.toNat = n := by
      have := Nat.div_eq_sub_div h1 hge
      rw [List.length_drop]
      omega
    rw [ih { s with mem := (s.mem.xorBytes s.pos.toNat (m.take s.rate.toNat)).permute, pos := 0 } _ rfl h1 hdiv]
    rw [absorbBlocks, Memory.bytes_permute, hpos, List.drop_drop, Nat.succ_mul]
    simp only [show (0 : Byte).toNat = 0 from rfl, Memory.bytes_xorBytes_zero]
    congr 2
    omega

end Sys2Proof.Machine
end

