-- ==== Sys2Proof/Tests/Slice0.lean ====
section
/-! SUPPORT. The model's own tests. Expected values are the spec's: its examples (30_encoding.md R84) and its vectors V1 to V74
(95_test_vectors.md). First the smoke tests of WellFormed, then the decoder, then one step of each command, then the host's
readings, then a witness for the hypotheses of every obligation. -/

open Sys2Proof Sys2Proof.Machine

namespace Sys2Proof.Tests

/-! WellFormed refuses a payload longer than its length field can say (R82), and takes the longest. -/

theorem test_absorb_too_long_is_ill_formed : (Instr.absorb (List.replicate 65536 0)).wellFormed = false := by
  rw [Instr.wellFormed, List.length_replicate]
  decide

theorem test_hash_too_long_is_ill_formed : (Instr.hash (List.replicate 65536 0)).wellFormed = false := by
  rw [Instr.wellFormed, List.length_replicate]
  decide

theorem test_xorIn_too_long_is_ill_formed : (Instr.xorIn 0 (List.replicate 256 0)).wellFormed = false := by
  rw [Instr.wellFormed, List.length_replicate]
  decide

theorem test_longest_payloads_are_well_formed :
    (Instr.absorb (List.replicate 65535 0)).wellFormed = true ∧
    (Instr.hash (List.replicate 65535 0)).wellFormed = true ∧
    (Instr.xorIn 0 (List.replicate 255 0)).wellFormed = true := by
  simp only [Instr.wellFormed, List.length_replicate]
  decide

/-! The decoder. One word of each command, written out from R70 to R72 or taken from the vector named, with its payload and
one byte of the next frame. -/

/-- V41: STATUS is 0x01000000. -/
theorem test_decode_status : decodeFrame [0x01, 0x00, 0x00, 0x00, 0x99] = .instr .status [0x99] := by decide

/-- V71: CLRERR is 0x02000000. -/
theorem test_decode_clrErr : decodeFrame [0x02, 0x00, 0x00, 0x00, 0x99] = .instr .clrErr [0x99] := by decide

/-- V74: INIT 72, 0x06, 64 is 0x10480640. -/
theorem test_decode_init : decodeFrame [0x10, 0x48, 0x06, 0x40, 0x99] = .instr (.init 72 0x06 64) [0x99] := by
  decide

/-- V40: INITK is 0x11000000. -/
theorem test_decode_initK : decodeFrame [0x11, 0x00, 0x00, 0x00, 0x99] = .instr .initK [0x99] := by decide

/-- V25: ABSORB x"6263" is 0x20000200. -/
theorem test_decode_absorb :
    decodeFrame [0x20, 0x00, 0x02, 0x00, 0x62, 0x63, 0x99] = .instr (.absorb [0x62, 0x63]) [0x99] := by decide

/-- V20: PAD is 0x21000000. -/
theorem test_decode_pad : decodeFrame [0x21, 0x00, 0x00, 0x00, 0x99] = .instr .pad [0x99] := by decide

/-- V32: SQUEEZE 65535 is 0x22FFFF00. -/
theorem test_decode_squeeze : decodeFrame [0x22, 0xFF, 0xFF, 0x00, 0x99] = .instr (.squeeze 65535) [0x99] := by
  decide

/-- V21: FINAL is 0x23000000. -/
theorem test_decode_final : decodeFrame [0x23, 0x00, 0x00, 0x00, 0x99] = .instr .final [0x99] := by decide

/-- R71, R72: HASH of one byte is 0x30000100. -/
theorem test_decode_hash : decodeFrame [0x30, 0x00, 0x01, 0x00, 0x7E, 0x99] = .instr (.hash [0x7E]) [0x99] := by
  decide

/-- V12: XOR_IN 199, x"aabb" is 0x40C70200. -/
theorem test_decode_xorIn :
    decodeFrame [0x40, 0xC7, 0x02, 0x00, 0xAA, 0xBB, 0x99] = .instr (.xorIn 199 [0xAA, 0xBB]) [0x99] := by decide

/-- V1: EXTRACT 192, 8 is 0x41C00800. -/
theorem test_decode_extract : decodeFrame [0x41, 0xC0, 0x08, 0x00, 0x99] = .instr (.extract 192 8) [0x99] := by
  decide

/-- V1: PERMUTE is 0x42000000. -/
theorem test_decode_permute : decodeFrame [0x42, 0x00, 0x00, 0x00, 0x99] = .instr .permute [0x99] := by decide

/-- V73: the four illegal words, and what each consumes. -/
theorem test_decode_illegal_words :
    decodeFrame [0x00, 0x00, 0x00, 0x00, 0x99] = .illegal .unassignedOpcode [0x99] ∧
    decodeFrame [0xFF, 0x12, 0x34, 0x56, 0x99] = .illegal .unassignedOpcode [0x99] ∧
    decodeFrame [0x20, 0x00, 0x03, 0x01, 0x00, 0x00, 0x00, 0x99] = .illegal .reservedBits [0x99] ∧
    decodeFrame [0x21, 0x00, 0x00, 0x01, 0x99] = .illegal .reservedBits [0x99] := by decide

/-- Every row of spec/opcode_table.json, at its "match" value in 32 bits, is the row's command. -/
theorem test_decodeTableWord_rows :
    [0x01000000, 0x02000000, 0x10000000, 0x11000000, 0x20000000, 0x21000000, 0x22000000, 0x23000000, 0x30000000,
      0x40000000, 0x41000000, 0x42000000].map (decodeTableWord 32) =
    [some .status, some .clrErr, some (.init 0 0 0), some .initK, some (.absorb []), some .pad, some (.squeeze 0),
      some .final, some (.hash []), some (.xorIn 0 []), some (.extract 0 0), some .permute] := by decide

/-! One step of each command. -/

/-- The state a step answers. -/
def nextOf (o : Host.Outcome State Fault Refusal) : Option State :=
  match o with
  | .next t => some t
  | .fault _ => none
  | .refused _ => none

/-- An instance absorbing, with these bytes in S from address 0 on. -/
def absorbing (rate suffix outlen pos : Byte) (bytes : List Byte) : State :=
  { State.reset with
    phase := .absorbing, rate := rate, suffix := suffix, outlen := outlen, pos := pos,
    mem := Memory.ofBytes bytes }

/-- An instance of rate r, output length L, with OUT_CNT = c, that has squeezed q bytes of its window; S is all zero. -/
def squeezed (phase : Phase) (r L q : Byte) (c : BitVec 16) : State :=
  { State.reset with phase := phase, rate := r, suffix := 0x1F, outlen := L, sqzPos := q, outCnt := c }

/-- V70: STATUS in the middle of an instance. -/
theorem test_status_absorbing :
    (nextOf (exec .status (absorbing 136 0x06 32 3 [0x61, 0x62, 0x63]))).map State.resp =
      some [0x00, 0x01, 0x00, 0x88, 0x06, 0x20, 0x03, 0x00, 0x00, 0x00] := by decide

/-- V32: STATUS gives OUT_CNT low byte first. -/
theorem test_status_done :
    (nextOf (exec .status (squeezed .done 168 0 16 200))).map State.resp =
      some [0x00, 0x03, 0x00, 0xA8, 0x1F, 0x00, 0x00, 0x10, 0xC8, 0x00] := by decide

/-- V71: CLRERR after an error. -/
theorem test_clrErr_clears :
    (nextOf (exec .clrErr { State.reset with err := 0x02 })).map (fun t => (t.err, t.resp)) =
      some (0x00, [0x00]) := by decide

/-- V71: CLRERR with a reserved bit sets ERR instead. -/
theorem test_clrErr_reserved_bit :
    (nextOf (step { State.reset with cmd := [0x02, 0x00, 0x00, 0x01] })).map (fun t => (t.err, t.resp)) =
      some (0x04, [0x04]) := by decide

/-- V35: INIT 201 keeps the instance and answers 01. -/
theorem test_init_rate_201 :
    (nextOf (exec (.init 201 0x06 32) (absorbing 136 0x06 32 3 [0x61, 0x62, 0x63]))).map
        (fun t => (t.resp, t.err, t.rate, t.pos, t.mem.readBytes 0 3)) =
      some ([0x01], 0x01, 136, 3, [0x61, 0x62, 0x63]) := by decide

/-- V37: INIT from DONE zeroes S and the counters and keeps ERR. -/
theorem test_init_from_done :
    (nextOf (exec (.init 136 0x06 32) { squeezed .done 136 32 32 32 with err := 0x02, mem := [(7, 1)] })).map
        (fun t => (t.err, t.phase, t.outCnt, t.mem)) = some (0x02, .absorbing, 0, []) := by decide

/-- V40: INITK, the fields that are not the OPEN parameters. -/
theorem test_initK :
    (nextOf (exec .initK State.reset)).map (fun t => (t.resp, t.phase, t.outlen)) =
      some ([0x00], .absorbing, 40) := by decide

/-- V16: absorbed bytes are in S at once. -/
theorem test_absorb_abc :
    (nextOf (exec (.absorb [0x61, 0x62, 0x63]) (absorbing 136 0x06 32 0 []))).map
        (fun t => (t.resp, t.pos, t.mem.readBytes 0 4)) =
      some ([0x00], 3, [0x61, 0x62, 0x63, 0x00]) := by decide

/-- V31: an empty ABSORB in IDLE. -/
theorem test_absorb_idle :
    (nextOf (exec (.absorb []) State.reset)).map (fun t => (t.resp, t.err, t.phase)) =
      some ([0x02], 0x02, .idle) := by decide

set_option maxRecDepth 100000 in
/-- V26: suffix and terminal bit in the same byte; S[0..4) after PAD are the first four bytes SQUEEZE emits. -/
theorem test_pad_same_byte :
    (nextOf (exec .pad (absorbing 4 0x1F 8 3 [0x01, 0x02, 0x03]))).map
        (fun t => (t.phase, t.pos, t.mem.readBytes 0 4)) =
      some (.squeezing, 0, [0x6F, 0x37, 0x02, 0xF5]) := by decide +kernel

/-- V31: PAD in SQUEEZING. -/
theorem test_pad_squeezing :
    (nextOf (exec .pad (squeezed .squeezing 136 32 0 0))).map (fun t => (t.resp, t.err, t.phase)) =
      some ([0x02], 0x02, .squeezing) := by decide

set_option maxRecDepth 100000 in
/-- R146 and V1: a used-up window is permuted first; S was all zero, so the bytes are KeccakF(Z)'s first. -/
theorem test_squeeze_lazy :
    (nextOf (exec (.squeeze 2) (squeezed .done 8 8 8 65535))).map (fun t => (t.resp, t.sqzPos, t.outCnt)) =
      some ([0x00, 0xE7, 0xDD], 2, 65535) := by decide +kernel

/-- V29: SQUEEZE 0 with OUTLEN = 0 moves to DONE. -/
theorem test_squeeze_none :
    (nextOf (exec (.squeeze 0) (squeezed .squeezing 168 0 0 0))).map (fun t => (t.resp, t.phase, t.mem)) =
      some ([0x00], .done, []) := by decide

set_option maxRecDepth 100000 in
/-- V22: SHA3-256("abc"). -/
theorem test_final_sha3_256_abc :
    (nextOf (exec .final (absorbing 136 0x06 32 3 [0x61, 0x62, 0x63]))).map State.resp =
      some ([0x00, 0x3A, 0x98, 0x5D, 0xA7, 0x4F, 0xE2, 0x25, 0xB2, 0x04, 0x5C, 0x17, 0x2D, 0x6B, 0xD3, 0x90, 0xBD] ++
        [0x85, 0x5F, 0x08, 0x6E, 0x3E, 0x9D, 0x52, 0x5B, 0x46, 0xBF, 0xE2, 0x45, 0x11, 0x43, 0x15, 0x32]) := by
  decide +kernel

/-- V33: FINAL in DONE. -/
theorem test_final_twice :
    (nextOf (exec .final (squeezed .done 136 32 32 32))).map (fun t => (t.resp, t.err, t.outCnt)) =
      some ([0x03], 0x03, 32) := by decide

set_option maxRecDepth 100000 in
/-- V50: the digest of the empty message under the provisional profile, as the sponge function of R182 gives it. -/
theorem test_sponge_provisional :
    sponge 120 0x1F [] 40 =
      [0x54, 0xAA, 0xFB, 0xBD, 0xB4, 0x0A, 0xD4, 0xB8, 0x14, 0xBF, 0x69, 0x14, 0x8E, 0xF2, 0x4F, 0x95, 0xAF, 0xA3,
       0xE6, 0x3F] ++
      [0x4B, 0x54, 0x2C, 0x1E, 0x7F, 0xB1, 0xBA, 0x12, 0x5E, 0x4E, 0x71, 0xE5, 0x01, 0xE4, 0xE7, 0x0F, 0x5B, 0xF8,
       0x66, 0xCF] := by decide +kernel

/-- V54, V62: HASH from any phase answers 00 and forty bytes, and ends in DONE. -/
theorem test_hash_any_state (s : State) (p : List Byte) :
    ∃ t, exec (.hash p) s = .next t ∧ t.phase = .done ∧ t.resp.length = s.resp.length + 41 := by
  refine ⟨_, rfl, ?_, ?_⟩
  · simp only [State.succeed_phase, State.squeezeBytes_snd, State.countSqueezed_phase]
    rw [phaseAfterSqueeze, if_pos]
    simp [State.hashPadded, State.initK, saturatingAdd_toNat]
  · simp only [State.succeed_resp, List.length_append, List.length_cons, State.squeezeBytes_length]
    simp [State.hashPadded, State.initK]

/-- V10: XOR_IN 16, x"ff" from reset, and the state it leaves is canonical. -/
theorem test_xorIn :
    (nextOf (exec (.xorIn 16 [0xFF]) State.reset)).map (fun t => (t.resp, t.mem)) =
      some ([0x00], [(16, 0xFF)]) := by decide

/-- V12: one byte past the end changes nothing in S. -/
theorem test_xorIn_past_the_end :
    (nextOf (exec (.xorIn 199 [0xAA, 0xBB]) State.reset)).map (fun t => (t.resp, t.err, t.mem)) =
      some ([0x01], 0x01, []) := by decide

/-- V10: EXTRACT 8, 16 of that state. -/
theorem test_extract :
    (nextOf (exec (.extract 8 16) { State.reset with mem := [(16, 0xFF)] })).map State.resp =
      some [0x00, 0, 0, 0, 0, 0, 0, 0, 0, 0xFF, 0, 0, 0, 0, 0, 0, 0] := by decide

/-- V14: the bound is on the true sum. -/
theorem test_extract_no_wrap :
    (nextOf (exec (.extract 255 255) State.reset)).map (fun t => (t.resp, t.err)) = some ([0x01], 0x01) := by
  decide

set_option maxRecDepth 100000 in
/-- V4: PERMUTE of a one-bit state. -/
theorem test_permute_one_bit :
    (nextOf (exec .permute { State.reset with mem := [(0, 0x01)] })).map
        (fun t => (t.resp, t.phase, t.mem.readBytes 0 8)) =
      some ([0x00], .idle, [0xC6, 0x13, 0x0B, 0x6F, 0x39, 0x44, 0xA9, 0xE2]) := by decide +kernel

/-- V5: PERMUTE with a reserved bit is not applied. -/
theorem test_permute_reserved_bit :
    (nextOf (step { State.reset with cmd := [0x42, 0x00, 0x00, 0x01] })).map (fun t => (t.resp, t.err, t.mem)) =
      some ([0x04], 0x04, []) := by decide

/-- V13: IllegalCommand takes priority over OutOfRange. -/
theorem test_priority :
    (nextOf (step { State.reset with cmd := [0x41, 0xC7, 0x02, 0x01] })).map (fun t => (t.resp, t.err)) =
      some ([0x04], 0x04) := by decide

/-! The permutation's first round (V3). -/

/-- V3's input: lane (0, 0) is 1 and every other lane 0. -/
def oneBit : Lanes := 1 :: List.replicate 24 0

/-- V3: after θ, lane (0, 0), column 1 and column 4. -/
theorem test_theta :
    theta oneBit = [1, 1, 0, 0, 2] ++ [0, 1, 0, 0, 2] ++ [0, 1, 0, 0, 2] ++ [0, 1, 0, 0, 2] ++ [0, 1, 0, 0, 2] := by
  decide +kernel

/-- V3: after χ and ι of round 0. -/
theorem test_round_zero :
    keccakRound oneBit 0 =
      [0, 0x0000100000000000, 0x8000, 1, 0x0000100000008000] ++
      [0, 0x0000200000200000, 0, 0x0000200000000000, 0x200000] ++ [2, 0x200, 0, 0x202, 0] ++
      [0x10000400, 0, 0x400, 0x10000000, 0] ++ [0x0000010000000000, 0, 0x0000010000000004, 0, 4] := by
  decide +kernel

/-! The host's side: the assembler, the readings of a digest, and a reset. -/

/-- The words and payloads of a line of assembly. -/
def framesOfText (line : String) : Option (List (Word × List Byte)) :=
  (assembleText line.toList).map fun fs => fs.map fun f => (f.word, f.payload)

/-- V74 and R83: lines of assembly. -/
theorem test_assemble :
    framesOfText "INIT 136, 0x06, 32" = some [(0x10880620, [])] ∧
    framesOfText "XOR_IN 135, x\"80\" ; terminal bit" = some [(0x40870100, [0x80])] ∧
    framesOfText "UPDATE x\"\"" = some [(0x20000000, [])] ∧
    framesOfText ".frame 0x20000301, x\"000000\"" = some [(0x20000301, [0, 0, 0])] ∧
    framesOfText "SQUEEZE 65536" = none := by decide

/-- R76, R82: a payload longer or shorter than its word says is no frame, in the model and in the assembler. -/
theorem test_frame_has_its_payload :
    Frame.ofParts 0x40000100 [0xAA, 0xBB] = none ∧ Frame.ofParts 0x40000100 [] = none ∧
    (Frame.ofParts 0x40000100 [0xAA]).map Frame.bytes = some [0x40, 0x00, 0x01, 0x00, 0xAA] ∧
    framesOfText ".frame 0x20000301, x\"0000\"" = none := by decide

/-- V60 and C2: the message is 128 bytes as printed, and the digest 40. -/
theorem test_kat_lengths :
    katMessages.map List.length = [128, 80] ∧ katDigest.length = 40 := ⟨rfl, rfl⟩

/-- V60: the source's integer. -/
theorem test_digestInt_kat : digestInt katDigest =
    93738456153034120650016320092685904102166196045943475033169329722660916102004727975353821 := by
  decide +kernel

/-- V60: the source's 80 hexadecimal digits. -/
theorem test_displayHex_kat : displayHex katDigest =
    "000000bc7c68fee7eec119a78c2aeb0a4a53721ac6f3ad130d3016cf6567c4ffd3bc0a4bd8b19ddd".toList := by
  decide +kernel

/-- R231, R208: a reset after an error; the registers are at reset and the fault record is kept. -/
theorem test_reset_move :
    (nextOf (step { squeezed .done 136 32 32 32 with
      err := 0x02, k := 7, resetLine := true, faultRecord := some .invalidState })) =
      some { State.reset with faultRecord := some .invalidState } := by decide

/-- R231, R216, R230: a reset asserted with a whole STATUS frame pending acts at once and leaves an empty channel. -/
theorem test_reset_before_pending_frame :
    (nextOf (step { State.reset with err := 0x02, cmd := [0x01, 0x00, 0x00, 0x00], resetLine := true })).map
        (fun t => (t.err, t.cmd, t.resp)) = some (0x00, [], []) := by decide

/-- R231: no move for a reset within a frame, nor with a response byte unread. -/
theorem test_reset_without_a_move :
    step { State.reset with cmd := [0x01, 0x00, 0x00], resetLine := true } = .fault .resetWithinFrame ∧
    step { State.reset with cmd := [0x42, 0x00, 0x00, 0x00, 0x30], resetLine := true } =
      .fault .resetWithinFrame ∧
    step { State.reset with resp := [0x00], resetLine := true } = .fault .resetWithResponseUnread := ⟨rfl, rfl, rfl⟩

/-- The observation of a run, if it ends. -/
def observed (s : State) (ms : List HostMove) : Option Observation :=
  match s.observeRun ms with
  | .next o => some o
  | .fault _ => none
  | .refused _ => none

/-- R236: from reset, a reset and then CLRERR and CLRERR and then a reset have one observation. -/
theorem test_observation_of_reset_and_clrErr :
    observed State.reset [.reset, .frame ⟨0x02000000, [], rfl⟩] =
      some ⟨[0x00], State.reset.arch, none⟩ ∧
    observed State.reset [.frame ⟨0x02000000, [], rfl⟩, .reset] =
      some ⟨[0x00], State.reset.arch, none⟩ := by decide +kernel

/-- R240(a): four bytes of a seven-byte frame. -/
theorem test_incomplete_frame :
    nextOf (step { State.reset with cmd := [0x20, 0x00, 0x03, 0x00] }) = none := by decide

/-- R235: the entry premise of a claim about a run from an instance that has absorbed "abc" (V16). -/
theorem test_entry_premise :
    (absorbing 136 0x06 32 3 [0x61, 0x62, 0x63]).entry
      ⟨[0x61, 0x62, 0x63] ++ List.replicate 197 0x00, .absorbing, 0x00, 136, 0x06, 32, 3, 0, 0⟩ ∧
    State.reset.entry ⟨List.replicate 200 0x00, .idle, 0x00, 0, 0x00, 0, 0, 0, 0⟩ := by decide +kernel

/-! Witnesses: for every obligation with hypotheses, values that meet them all, each clause at a boundary of its range. -/

/-- A state absorbing at the last byte of the widest window. -/
def absorbingLast : State := absorbing 200 0x06 32 199 [0x61]

/-- A state absorbing at the smallest rate. -/
def absorbingRate1 : State := absorbing 1 0x06 32 0 [0x61]

theorem witness_EncodeThenDecode :
    (Instr.extract 199 2).wellFormed = true ∧ (Instr.absorb (List.replicate 65535 0)).wellFormed = true :=
  ⟨rfl, test_longest_payloads_are_well_formed.1⟩

theorem witness_DecodeThenEncode :
    decodeFrame [0x40, 0xC7, 0x01, 0x00, 0xAA, 0x99] = .instr (.xorIn 199 [0xAA]) [0x99] := by decide

theorem witness_LegalWordsAreTheTable :
    decodeWord 0x41C70200 [] = .ok (.extract 199 2) ∧
    ∃ r ∈ opcodeTable, r.covers 0x41C70200 = true ∧ r.op = .extract := by decide

theorem witness_UnassignedOpcodesFail :
    ([0x00, 0x03, 0x0F, 0x12, 0x1F, 0x24, 0x2F, 0x31, 0x3F, 0x43, 0xFF].map opOfByte).all Option.isNone = true ∧
    { State.reset with cmd := [0xFF, 0x12, 0x34, 0x56, 0x99] }.resetLine = false ∧
    { State.reset with cmd := [0xFF, 0x12, 0x34, 0x56, 0x99] }.cmd = 0xFF :: 0x12 :: 0x34 :: 0x56 :: [0x99] := by
  decide

theorem witness_ReservedBitsFail :
    ((0x42000001#32).extractLsb' 24 8 = 0x42#8 ∧ (0x42000001#32).extractLsb' 0 24 ≠ 0) ∧
    ((0x20000301#32).extractLsb' 24 8 = 0x20#8 ∧ (0x20000301#32).extractLsb' 0 8 ≠ 0 ∧
      [0x61#8, 0x62#8, 0x63#8].length = payloadLen 0x20000301#32 ∧
      { State.reset with cmd := [0x20, 0x00, 0x03, 0x01, 0x61, 0x62, 0x63] }.resetLine = false ∧
      { State.reset with cmd := [0x20, 0x00, 0x03, 0x01, 0x61, 0x62, 0x63] }.cmd =
        wordBytes 0x20000301#32 ++ [0x61, 0x62, 0x63] ++ []) ∧
    ((0x40C80080#32).extractLsb' 24 8 = 0x40#8 ∧ (0x40C80080#32).extractLsb' 0 8 ≠ 0 ∧
      ([] : List Byte).length = payloadLen 0x40C80080#32) ∧
    (0x10880620#32).extractLsb' 24 8 = 0x10#8 := by decide

theorem witness_PayloadIsConsumedWhole :
    { State.reset with cmd := [0x20, 0x00, 0x03, 0x00, 0x61, 0x62] }.cmd = wordBytes 0x20000300 ++ [0x61, 0x62] ∧
    (∃ t, step { State.reset with cmd := [0x20, 0x00, 0x03, 0x00, 0x61, 0x62, 0x63] } = .next t) ∧
    (∃ t, step { State.reset with cmd := [0x40, 0xC8, 0x01, 0x00, 0x61] } = .next t) ∧
    (∃ t, step { State.reset with cmd := [0x42, 0x00, 0x00, 0x01] } = .next t) ∧
    State.reset.resetLine = false ∧ (Instr.xorIn 199 [0xAA]).wellFormed = true :=
  ⟨by decide, ⟨_, rfl⟩, ⟨_, rfl⟩, ⟨_, rfl⟩, rfl, rfl⟩

theorem witness_StepRunsDecodedCommand :
    { State.reset with cmd := [0x23, 0x00, 0x00, 0x00] }.resetLine = false ∧
    decodeFrame { State.reset with cmd := [0x23, 0x00, 0x00, 0x00] }.cmd = .instr .final [] := by decide

/-- The STATUS frame. -/
def statusFrame : Frame := ⟨0x01000000, [], rfl⟩

/-- Each clause: nothing pending, then a reset with no frame, with two whole frames, with a byte unread, and in a frame. -/
theorem witness_EngineWaitsOrResets :
    (State.reset.resetLine = false ∧ State.reset.cmd = []) ∧
    ({ State.reset with resetLine := true }.resp = [] ∧
      { State.reset with resetLine := true }.cmd = (([] : List Frame).map Frame.bytes).flatten) ∧
    ({ State.reset with resetLine := true, cmd := [1, 0, 0, 0, 1, 0, 0, 0] }.resp = [] ∧
      { State.reset with resetLine := true, cmd := [1, 0, 0, 0, 1, 0, 0, 0] }.cmd =
        ([statusFrame, statusFrame].map Frame.bytes).flatten) ∧
    { State.reset with resetLine := true, resp := [0x00] }.resp ≠ [] ∧
    ({ State.reset with resetLine := true, cmd := [1, 0, 0] }.resp = [] ∧
      ∀ fs : List Frame,
        { State.reset with resetLine := true, cmd := [1, 0, 0] }.cmd ≠ (fs.map Frame.bytes).flatten) :=
  ⟨by decide, by decide, by decide, by decide, rfl,
    fun fs h => absurd ((noPartialFrame_iff [1, 0, 0]).mpr ⟨fs, h⟩) (by decide)⟩

theorem witness_IncompleteFrameIsStuck :
    (Instr.absorb [0x61]).wellFormed = true ∧ 4 < (encode (.absorb [0x61])).length ∧
    { State.reset with cmd := [0x20, 0x00, 0x01, 0x00] }.resetLine = false ∧
    { State.reset with cmd := [0x20, 0x00, 0x01, 0x00] }.cmd = (encode (.absorb [0x61])).take 4 ∧
    { State.reset with cmd := [0x20] }.cmd = (encode (.absorb [0x61])).take 1 := by decide

theorem witness_ResetState :
    { squeezed .done 136 32 32 32 with resetLine := true }.resetLine = true ∧
    ∃ t, step { squeezed .done 136 32 32 32 with resetLine := true } = .next t := ⟨rfl, _, rfl⟩

/-- A command's frame, and the frame of an illegal word with a payload. -/
theorem witness_RunExecutesFrames :
    (⟨State.reset, [0x00]⟩ : RunState).engine.cmd = [] ∧ State.reset.resetLine = false ∧
    (Instr.xorIn 199 [0xAA]).wellFormed = true ∧
    frameOf (.xorIn 199 [0xAA]) = some ⟨0x40C70100, [0xAA], rfl⟩ ∧
    decodeWord 0x20000301 [0, 0, 0] = .error .reservedBits ∧
    Frame.ofParts 0x20000301 [0, 0, 0] ≠ none := by decide

theorem witness_StatusReadsRegisters :
    (0x01000100#32).extractLsb' 24 8 = 0x01#8 ∧ (0x01000100#32).extractLsb' 0 24 ≠ 0 ∧
    { State.reset with cmd := [0x01, 0x00, 0x01, 0x00, 0x99] }.resetLine = false ∧
    { State.reset with cmd := [0x01, 0x00, 0x01, 0x00, 0x99] }.cmd = wordBytes 0x01000100#32 ++ [0x99] := by decide

theorem witness_ClrErrClearsErr :
    (0x02000001#32).extractLsb' 24 8 = 0x02#8 ∧ (0x02000001#32).extractLsb' 0 24 ≠ 0 ∧
    { State.reset with cmd := [0x02, 0x00, 0x00, 0x01] }.resetLine = false ∧
    { State.reset with cmd := [0x02, 0x00, 0x00, 0x01] }.cmd = wordBytes 0x02000001#32 ++ [] := by decide

theorem witness_InitCreatesInstance :
    1 ≤ (1 : Byte).toNat ∧ (1 : Byte).toNat ≤ 200 ∧ 1 ≤ (200 : Byte).toNat ∧ (200 : Byte).toNat ≤ 200 := by decide

theorem witness_InitChecksRate :
    (1 ≤ (200 : Byte).toNat ∧ (200 : Byte).toNat ≤ 200) ∧
    ¬(1 ≤ (0 : Byte).toNat ∧ (0 : Byte).toNat ≤ 200) ∧ ¬(1 ≤ (201 : Byte).toNat ∧ (201 : Byte).toNat ≤ 200) := by
  decide

/-- For FinalEmitsDigest, AbsorbCompletes and PadSwitchesToSqueezing. -/
theorem witness_absorbing_instance :
    (absorbingLast.phase = .absorbing ∧ absorbingLast.rate.toNat ≤ 200 ∧
      absorbingLast.pos.toNat < absorbingLast.rate.toNat) ∧
    (absorbingRate1.phase = .absorbing ∧ absorbingRate1.rate.toNat ≤ 200 ∧
      absorbingRate1.pos.toNat < absorbingRate1.rate.toNat) := by decide

/-- AbsorbCompletes, its last clause: three bytes that do not fill the block, and addresses inside and beside them. -/
theorem witness_AbsorbCompletes_within :
    (absorbing 136 0x06 32 3 []).pos.toNat + [0x61#8, 0x62#8, 0x63#8].length <
      (absorbing 136 0x06 32 3 []).rate.toNat := by decide

/-- For FinalChecksPhase, AbsorbAndPadCheckPhase and SqueezeChecksPhase. -/
theorem witness_phases :
    State.reset.phase = .idle ∧ (absorbing 136 0x06 32 3 []).phase = .absorbing ∧
    (squeezed .squeezing 136 32 0 0).phase = .squeezing ∧ (squeezed .done 136 32 32 32).phase = .done := by decide

theorem witness_AbsorbByteByByte :
    absorbingLast.phase = .absorbing ∧ absorbingLast.pos.toNat < 200 ∧
    absorbingLast.pos + 1 = absorbingLast.rate ∧
    (absorbing 136 0x06 32 3 []).pos + 1 ≠ (absorbing 136 0x06 32 3 []).rate := by decide

theorem witness_AbsorbIsIncremental :
    (absorbing 136 0x06 32 0 []).phase = .absorbing ∧
    ∃ a b, exec (.absorb [0x61]) (absorbing 136 0x06 32 0 []) = .next a ∧
      exec (.absorb [0x62, 0x63]) a = .next b :=
  ⟨rfl, _, _, rfl, rfl⟩

theorem witness_SqueezeEmitsStream :
    ((squeezed .squeezing 1 32 0 0).phase = .squeezing ∧ 1 ≤ (squeezed .squeezing 1 32 0 0).rate.toNat ∧
      (squeezed .squeezing 1 32 0 0).sqzPos.toNat ≤ (squeezed .squeezing 1 32 0 0).rate.toNat) ∧
    ((squeezed .done 200 32 200 200).phase = .done ∧ (squeezed .done 200 32 200 200).rate.toNat ≤ 200 ∧
      (squeezed .done 200 32 200 200).sqzPos.toNat ≤ (squeezed .done 200 32 200 200).rate.toNat) := by decide

theorem witness_SqueezeIsIncremental :
    (1 : BitVec 16).toNat + (65534 : BitVec 16).toNat ≤ 65535 ∧
    ∃ a b, exec (.squeeze 1) (squeezed .squeezing 136 32 0 0) = .next a ∧ exec (.squeeze 2) a = .next b :=
  ⟨by decide, _, _, rfl, rfl⟩

theorem witness_SpongeStopsOutsideState :
    ((absorbing 201 0x06 32 200 []).phase = .absorbing ∧ 200 ≤ (absorbing 201 0x06 32 200 []).pos.toNat) ∧
    ((absorbing 0 0x06 32 0 []).phase = .absorbing ∧ (absorbing 0 0x06 32 0 []).rate.toNat = 0) ∧
    ((absorbing 201 0x06 32 0 []).phase = .absorbing ∧ 200 < (absorbing 201 0x06 32 0 []).rate.toNat) ∧
    ((squeezed .done 201 32 200 200).phase = .done ∧
      (squeezed .done 201 32 200 200).sqzPos ≠ (squeezed .done 201 32 200 200).rate ∧
      200 ≤ (squeezed .done 201 32 200 200).sqzPos.toNat) := by decide

/-- For InstanceComputesSponge and SpongeOutputLength. -/
theorem witness_sponge_rates :
    (1 ≤ (1 : Byte).toNat ∧ (1 : Byte).toNat ≤ 200) ∧ (1 ≤ (200 : Byte).toNat ∧ (200 : Byte).toNat ≤ 200) := by
  decide

theorem witness_StreamedHashIsHash :
    ∃ h, exec (.hash [[0x61], [], [0x62, 0x63]].flatten) State.reset = .next h := ⟨_, rfl⟩

/-- PowHashComputesKshake320, its last clause, and a message beyond it. -/
theorem witness_PowHashComputesKshake320 :
    (List.replicate 65535 (0x00 : Byte)).length ≤ 65535 ∧ ¬(List.replicate 65536 (0x00 : Byte)).length ≤ 65535 := by
  simp only [List.length_replicate]
  decide

/-- For XorInWritesWindow and ExtractReadsWindow. -/
theorem witness_window :
    (199 : Byte).toNat + [0xAA#8].length ≤ 200 ∧ (200 : Byte).toNat + ([] : List Byte).length ≤ 200 ∧
    (199 : Byte).toNat + (1 : Byte).toNat ≤ 200 ∧ (0 : Byte).toNat + (200 : Byte).toNat ≤ 200 := by decide

theorem witness_XorInTwiceCancels :
    (199 : Byte).toNat + [0xAA#8].length ≤ 200 ∧ (absorbing 136 0x06 32 1 [0x61]).mem.wf = true ∧
    ∃ a b, exec (.xorIn 199 [0xAA]) (absorbing 136 0x06 32 1 [0x61]) = .next a ∧
      exec (.xorIn 199 [0xAA]) a = .next b :=
  ⟨by decide, by decide, _, _, rfl, rfl⟩

theorem witness_AdapterActsOnLanes : (199 : Byte).toNat < 200 ∧ (0 : Byte).toNat < 200 := by decide

theorem witness_AdapterChecksBound :
    (199 : Byte).toNat + [0xAA#8, 0xBB#8].length > 200 ∧ (199 : Byte).toNat + [0xAA#8].length ≤ 200 ∧
    (201 : Byte).toNat + (0 : Byte).toNat > 200 ∧ (255 : Byte).toNat + (255 : Byte).toNat > 200 ∧
    (200 : Byte).toNat + (0 : Byte).toNat ≤ 200 ∧ (200 : Byte).toNat ≤ 200 := by decide

/-- For StepMappingsByLane and PiMovesLanes. -/
theorem witness_lane_positions : (4 : Nat) < 5 ∧ (0 : Nat) < 5 ∧ (63 : Nat) < 64 := by decide

theorem witness_TablesMatchDerivations :
    0x8000000000008003#64 ∈ roundConstants ∧ (0x8000000000008003#64).getLsbD 63 = true ∧ (23 : Nat) < 24 := by
  decide

theorem witness_LanesAreTheBytes :
    (Memory.bytes [(199, 0x80)]).length = 200 ∧ oneBit.length = 25 := ⟨Memory.length_bytes _, rfl⟩

/-- A success, and each code of R200 but 0x04, which no decoded command answers. -/
theorem witness_ResponseFollowsErrorTable :
    (∃ t, exec .permute State.reset = .next t ∧ responseCode .permute State.reset = 0x00) ∧
    (∃ t, exec (.extract 199 2) State.reset = .next t ∧ responseCode (.extract 199 2) State.reset = 0x01) ∧
    (∃ t, exec (.squeeze 1) State.reset = .next t ∧ responseCode (.squeeze 1) State.reset = 0x02) ∧
    (∃ t, exec .final (squeezed .done 136 32 32 32) = .next t ∧
      responseCode .final (squeezed .done 136 32 32 32) = 0x03) :=
  ⟨⟨_, rfl, rfl⟩, ⟨_, rfl, rfl⟩, ⟨_, rfl, rfl⟩, ⟨_, rfl, rfl⟩⟩

/-- For EveryCommandCompletes and PermutationCounts: a state of each phase but IDLE. -/
theorem witness_Inv :
    (absorbing 200 0x06 32 199 [0x61]).Inv ∧ (squeezed .squeezing 136 32 1 1).Inv ∧
    (squeezed .done 136 32 136 136).Inv := ⟨by decide, by decide, by decide⟩

theorem witness_PhaseTransitions :
    (∃ t, exec .initK State.reset = .next t) ∧
    (∃ t, exec (.init 201 0 0) State.reset = .next t ∧ responseCode (.init 201 0 0) State.reset ≠ 0x00) ∧
    (State.reset.resetLine = false ∧
      ∃ t, step { State.reset with cmd := [0x01, 0x00, 0x00, 0x00] } = .next t ∧ t.phase = .idle) :=
  ⟨⟨_, rfl⟩, ⟨_, rfl, by decide⟩, ⟨rfl, _, rfl, rfl⟩⟩

theorem witness_ProfileIsFixed :
    Instr.op .final ≠ .init ∧ Instr.op .final ≠ .initK ∧ Instr.op .final ≠ .hash ∧
    ∃ t, exec .final absorbingLast = .next t := ⟨by decide, by decide, by decide, _, rfl⟩

theorem witness_ErrIsSticky : State.reset.resetLine = false ∧
    (∃ t, step { State.reset with err := 0x02, cmd := [0x02, 0x00, 0x00, 0x00] } = .next t ∧
      decodeFrame [0x02, 0x00, 0x00, 0x00] = .instr .clrErr []) ∧
    (∃ t, step { State.reset with err := 0x02, cmd := [0x41, 0xC7, 0x02, 0x00] } = .next t ∧
      decodeFrame [0x41, 0xC7, 0x02, 0x00] = .instr (.extract 199 2) []) :=
  ⟨rfl, ⟨_, rfl, by decide⟩, ⟨_, rfl, by decide⟩⟩

theorem witness_FaultRecordIsKept :
    (∃ t, step { State.reset with faultRecord := some .invalidState, resetLine := true } = .next t) ∧
    (∃ t, step { State.reset with cmd := [0x41, 0xC7, 0x02, 0x00] } = .next t ∧ t.resp = [0x01]) :=
  ⟨⟨_, rfl⟩, ⟨_, rfl, by decide⟩⟩

theorem witness_FrameIndexCountsCommands :
    { State.reset with cmd := [0x00, 0x00, 0x00, 0x00] }.resetLine = false ∧
    { State.reset with cmd := [0x00, 0x00, 0x00, 0x00] }.cmd ≠ [] ∧
    ∃ t, step { State.reset with cmd := [0x00, 0x00, 0x00, 0x00] } = .next t := ⟨rfl, by decide, _, rfl⟩

theorem witness_StepKeepsInv :
    { absorbing 136 0x06 32 135 [0x61] with cmd := [0x20, 0x00, 0x01, 0x00, 0x7E] }.Inv ∧
    ∃ t, step { absorbing 136 0x06 32 135 [0x61] with cmd := [0x20, 0x00, 0x01, 0x00, 0x7E] } = .next t :=
  ⟨by decide, _, rfl⟩

/-- For DigestIntIsLittleEndian and DisplayHexIsDigestInt. -/
theorem witness_digest : katDigest.length = 40 := by decide

end Sys2Proof.Tests
end

section
/-! The phase after every command and the frame index (10_state.md R22, R24). -/

namespace Sys2Proof.Machine

/-! The phase after SqueezeBytes (42_sponge.md R146). -/

/-- SqueezeBytes enters DONE exactly when OUT_CNT, which saturates, reaches OUTLEN. -/
theorem State.squeezeBytes_phase (s : State) (n : Nat) : (s.squeezeBytes n).2.phase =
    if s.outlen.toNat ≤ min 65535 (s.outCnt.toNat + n) then .done else s.phase := by
  simp only [State.squeezeBytes_snd, State.countSqueezed_phase, State.squeezeLoop_phase, State.squeezeLoop_outCnt,
    State.squeezeLoop_outlen, phaseAfterSqueeze, saturatingAdd_toNat]

/-- A fresh padding starts OUT_CNT at 0, so squeezing OUTLEN bytes or more ends in DONE. OUTLEN is one byte, so the
saturation of OUT_CNT is not met. -/
theorem State.padAndSwitch_squeezeBytes_phase {s : State} {n : Nat} (h : s.outlen.toNat ≤ n) :
    (s.padAndSwitch.squeezeBytes n).2.phase = .done := by
  have hlt := s.outlen.isLt
  rw [State.squeezeBytes_phase, if_pos]
  simp only [State.padAndSwitch_outlen, State.padAndSwitch_outCnt]
  omega

/-- The KSHAKE320 profile's OUTLEN is the 40 bytes that HASH squeezes (44_kshake320.md R180). -/
theorem State.hashPadded_squeezeBytes_phase (s : State) (p : List Byte) :
    ((s.hashPadded p).squeezeBytes 40).2.phase = .done :=
  State.padAndSwitch_squeezeBytes_phase (by simp)

/-! The phase after a command (10_state.md R24). -/

/-- PHASE after a command that answers a next state. -/
def phaseAfter (i : Instr) (s : State) : Phase :=
  match i with
  | .init rate _ _ => if 1 ≤ rate.toNat ∧ rate.toNat ≤ 200 then .absorbing else s.phase
  | .initK => .absorbing
  | .pad => if s.phase = .absorbing then .squeezing else s.phase
  | .squeeze n =>
    if (s.phase = .squeezing ∨ s.phase = .done) ∧
      s.outlen.toNat ≤ min 65535 (s.outCnt.toNat + n.toNat) then .done else s.phase
  | .final => if s.phase = .absorbing then .done else s.phase
  | .hash _ => .done
  | .status | .clrErr | .absorb _ | .xorIn _ _ | .extract _ _ | .permute => s.phase

/-- The phases SQUEEZE is refused in are the two it is not made for (42_sponge.md R147). -/
theorem Phase.squeezing_or_done_iff (p : Phase) :
    (p = .squeezing ∨ p = .done) ↔ ¬(p = .idle ∨ p = .absorbing) := by
  cases p <;> decide

/-- Every command leaves PHASE where `phaseAfter` says. -/
theorem exec_phase {i : Instr} {s t : State} (h : exec i s = .next t) : t.phase = phaseAfter i s := by
  cases i with
  | status => cases h; rfl
  | clrErr => cases h; rfl
  | init rate suffix outlen =>
    simp only [exec, execInit_eq, Host.Outcome.next.injEq] at h
    subst h
    simp only [phaseAfter]
    split_ifs <;> rfl
  | initK => cases h; rfl
  | absorb p =>
    simp only [exec, execAbsorb_eq] at h
    split_ifs at h <;> cases h
    · simp [phaseAfter]
    · rfl
  | pad =>
    simp only [exec, execPad_eq] at h
    split_ifs at h with hp <;> cases h <;> simp [phaseAfter, hp]
  | squeeze n =>
    simp only [exec, execSqueeze_eq] at h
    split_ifs at h with hp <;> cases h
    · simp [phaseAfter, Phase.squeezing_or_done_iff, hp]
    · rw [State.succeed_phase, State.squeezeBytes_phase]
      simp only [phaseAfter, Phase.squeezing_or_done_iff, hp, not_false_eq_true, true_and]
  | final =>
    simp only [exec, execFinal_eq] at h
    split_ifs at h with h0 hp <;> cases h
    · simp [phaseAfter, h0]
    · rw [State.succeed_phase, State.padAndSwitch_squeezeBytes_phase le_rfl]
      simp [phaseAfter, hp]
    · simp [phaseAfter, hp]
  | hash p =>
    simp only [exec, execHash, Host.Outcome.next.injEq] at h
    subst h
    rw [State.succeed_phase, State.hashPadded_squeezeBytes_phase, phaseAfter]
  | xorIn offset p =>
    simp only [exec, execXorIn_eq, Host.Outcome.next.injEq] at h
    subst h
    split_ifs <;> rfl
  | extract offset len =>
    simp only [exec, execExtract_eq, Host.Outcome.next.injEq] at h
    subst h
    split_ifs <;> rfl
  | permute => cases h; rfl

/-- "No transition leads back to IDLE": every phase a command writes is another. -/
theorem phase_idle_of_phaseAfter {i : Instr} {s : State} (h : phaseAfter i s = .idle) : s.phase = .idle := by
  cases i with
  | initK | hash => cases h
  | init | pad | squeeze | final =>
    simp only [phaseAfter] at h
    split_ifs at h
    exact h
  | status | clrErr | absorb | xorIn | extract | permute => exact h

/-- A failing command leaves PHASE (60_exceptions.md R203). -/
theorem exec_phase_of_failed {i : Instr} {s t : State} (h : exec i s = .next t) (hc : responseCode i s ≠ 0x00) :
    t.phase = s.phase := by
  obtain ⟨c, -, rfl⟩ | ⟨h0, -⟩ := exec_cases h
  · exact State.raise_phase s c
  · exact absurd h0 hc

/-- With reset released, an engine in IDLE after a step was in IDLE before it. -/
theorem step_phase_idle {s t : State} (hl : s.resetLine = false) (h : step s = .next t) (ht : t.phase = .idle) :
    s.phase = .idle := by
  obtain ⟨-, -, rfl⟩ | ⟨hr, -⟩ | ⟨-, r, rest, -, rfl⟩ | ⟨-, i, rest, -, he⟩ := step_cases h
  · exact ht
  · simp [hl] at hr
  · exact ht
  · exact phase_idle_of_phaseAfter ((exec_phase he).symm.trans ht)

/-- Settles O49: the phase of each command, with the error case from `exec_cases`, and the steps from `step_cases`. -/
theorem phaseTransitions : Obligations.PhaseTransitions := by
  refine ⟨⟨rfl, rfl, rfl, rfl⟩, fun i s t h => ⟨?_, exec_phase_of_failed h⟩, fun _ _ => step_phase_idle, rfl⟩
  rw [exec_phase h]
  cases i <;> rfl

/-! The frame index (10_state.md R22). -/

/-- A command that answers a next state has advanced the frame index by one, whether it failed or succeeded. -/
theorem exec_k {i : Instr} {s t : State} (h : exec i s = .next t) : t.k = s.k + 1 := by
  obtain ⟨c, -, rfl⟩ | ⟨-, u, data, rfl, -, -, hk, -⟩ := exec_cases h
  · exact State.raise_k s c
  · rw [State.succeed_k, hk]

/-- Settles O53: a frame pending with reset released is an illegal word's or a command's, and both advance the index. -/
theorem frameIndexCountsCommands : Obligations.FrameIndexCountsCommands := by
  intro s t hl hc h
  obtain ⟨-, hnil, -⟩ | ⟨hr, -⟩ | ⟨-, r, rest, -, rfl⟩ | ⟨-, i, rest, -, he⟩ := step_cases h
  · exact absurd hnil hc
  · simp [hl] at hr
  · rfl
  · exact (exec_k he :)

end Sys2Proof.Machine
end

section
/-! Illegal words and the whole consumption of the payload (30_encoding.md R76 to R78). -/

namespace Sys2Proof

/-! The decoder by OP value (R77, R78, R80). -/

/-- A byte selects no command exactly when it is the OP value of none. -/
theorem opOfByte_eq_none_iff {b : Byte} : opOfByte b = none ↔ ∀ o : Op, o.code ≠ b := by
  constructor
  · rintro h o rfl
    simp at h
  · exact fun h => List.find?_eq_none.mpr fun o _ => by simpa using h o

/-- The unassigned OP values lie in the six gaps that the twelve codes leave (R78). -/
theorem opOfByte_eq_none_iff_gaps (b : Byte) : opOfByte b = none ↔
    b.toNat = 0x00 ∨ (0x03 ≤ b.toNat ∧ b.toNat ≤ 0x0F) ∨ (0x12 ≤ b.toNat ∧ b.toNat ≤ 0x1F) ∨
    (0x24 ≤ b.toNat ∧ b.toNat ≤ 0x2F) ∨ (0x31 ≤ b.toNat ∧ b.toNat ≤ 0x3F) ∨
    (0x43 ≤ b.toNat ∧ b.toNat ≤ 0xFF) := by
  have hlt := b.isLt
  simp only [opOfByte_eq_none_iff, ne_eq, ← BitVec.toNat_inj]
  constructor
  · intro h
    have codes : ∀ o ∈ Op.all, ¬ o.code.toNat = b.toNat := fun o _ => h o
    simp only [Op.all, Op.code, List.forall_mem_cons, BitVec.ofNat_eq_ofNat, BitVec.toNat_ofNat] at codes
    omega
  · intro h o
    cases o <;> simp [Op.code] <;> omega

/-- Of the 256 bytes, all but the twelve codes select no command (R78). -/
theorem length_unassigned :
    ((List.range 256).filter fun n => opOfByte (BitVec.ofNat 8 n) = none).length = 244 := by
  decide +kernel

theorem decodeWord_of_unassigned {w : Word} (h : opOfByte (opField w) = none) (p : List Byte) :
    decodeWord w p = .error .unassignedOpcode := by
  rw [decodeWord, h]

/-- A word with an unassigned OP has no payload (R78). -/
theorem payloadLen_of_unassigned {w : Word} (h : opOfByte (opField w) = none) : payloadLen w = 0 := by
  have hne : ∀ o : Op, opField w ≠ o.code := fun o => (opOfByte_eq_none_iff.mp h o).symm
  exact (if_neg (not_or.mpr ⟨hne .absorb, hne .hash⟩)).trans (if_neg (hne .xorIn))

/-- A word whose OP is in the map is legal exactly when its reserved field is zero (R77). -/
theorem decodeWord_of_op {w : Word} {o : Op} (h : opField w = o.code) (p : List Byte) :
    decodeWord w p =
      if reservedField o.format w = 0 then .ok (operandsOf o w p) else .error .reservedBits := by
  rw [decodeWord, h, opOfByte_code]

/-! The OP values of a format (R71, R72). -/

theorem exists_op_of_format_n :
    ∀ b ∈ [0x01#8, 0x02#8, 0x11#8, 0x21#8, 0x23#8, 0x42#8], ∃ o ∈ Op.all, b = o.code ∧ o.format = .n := by
  decide

theorem exists_op_of_format_l_or_w :
    ∀ b ∈ [0x20#8, 0x22#8, 0x30#8, 0x40#8, 0x41#8],
      ∃ o ∈ Op.all, b = o.code ∧ (o.format = .l ∨ o.format = .w) := by
  decide

/-- Formats L and W reserve the byte C (R77). -/
theorem reservedField_eq_zero_iff {f : Format} (hf : f = .l ∨ f = .w) (w : Word) :
    reservedField f w = 0 ↔ fieldC w = 0 := by
  have hC : (fieldC w).zeroExtend 24 = 0 ↔ fieldC w = 0 := by
    rw [← BitVec.toNat_inj, ← BitVec.toNat_inj]
    simp
    omega
  obtain rfl | rfl := hf <;> exact hC

/-- A word of the map with a non-zero reserved field is illegal, whatever its payload (R77). -/
theorem decodeWord_of_reserved {w : Word}
    (h : (w.extractLsb' 24 8 ∈ [0x01#8, 0x02#8, 0x11#8, 0x21#8, 0x23#8, 0x42#8] ∧ w.extractLsb' 0 24 ≠ 0) ∨
      (w.extractLsb' 24 8 ∈ [0x20#8, 0x22#8, 0x30#8, 0x40#8, 0x41#8] ∧ w.extractLsb' 0 8 ≠ 0))
    (p : List Byte) : decodeWord w p = .error .reservedBits := by
  obtain ⟨hop, hr⟩ | ⟨hop, hr⟩ := h
  · obtain ⟨o, -, ho, hf⟩ := exists_op_of_format_n _ hop
    rw [decodeWord_of_op ho, hf]
    exact if_neg hr
  · obtain ⟨o, -, ho, hf⟩ := exists_op_of_format_l_or_w _ hop
    rw [decodeWord_of_op ho]
    exact if_neg (mt (reservedField_eq_zero_iff hf w).mp hr)

/-- Format P has no reserved bits (R77). -/
theorem decodeWord_of_init {w : Word} (h : opField w = 0x10) (p : List Byte) :
    decodeWord w p = .ok (.init (fieldA w) (fieldB w) (fieldC w)) :=
  decodeWord_of_op (o := .init) h p

end Sys2Proof

namespace Sys2Proof.Machine

/-! One step on a whole frame at the head of the command channel (R76). -/

/-- A command leaves the command channel alone, whether it fails or succeeds. -/
theorem exec_cmd {i : Instr} {s t : State} (h : exec i s = .next t) : t.cmd = s.cmd := by
  obtain ⟨c, -, rfl⟩ | ⟨-, u, data, rfl, -, -, -, hcmd, -⟩ := exec_cases h
  · exact State.raise_cmd s c
  · rw [State.succeed_cmd, hcmd]

/-- An illegal word takes its payload with it and has the effect of the error 0x04 alone (R77, R78; 60_exceptions.md
R203). -/
theorem step_of_illegal_frame {s : State} {w : Word} {p tail : List Byte} {r : DecodeReject}
    (hl : s.resetLine = false) (hp : p.length = payloadLen w) (hc : s.cmd = wordBytes w ++ p ++ tail)
    (hd : decodeWord w p = .error r) : ∃ t, step s = .next t ∧ Failed { s with cmd := tail } t 0x04 := by
  have hf : decodeFrame s.cmd = .illegal r tail := by rw [hc, decodeFrame_frame w p tail hp, hd]
  exact ⟨_, step_of_illegal hl hf, State.raise_failed _ .illegalCommand⟩

/-- A step with a whole frame pending takes exactly that frame off the channel, legal or not (R76). -/
theorem step_cmd_of_frame {s t : State} {w : Word} {p tail : List Byte} (hl : s.resetLine = false)
    (hp : p.length = payloadLen w) (hc : s.cmd = wordBytes w ++ p ++ tail) (h : step s = .next t) :
    t.cmd = tail := by
  have hf := decodeFrame_frame w p tail hp
  rw [← hc] at hf
  cases hd : decodeWord w p with
  | ok i =>
    rw [hd] at hf
    rw [step_of_instr hl hf] at h
    exact exec_cmd h
  | error r =>
    rw [hd] at hf
    rw [step_of_illegal hl hf] at h
    cases h
    rfl

/-- With less than its payload behind a word, the engine has no step (R76; 70_reset_and_hazards.md R240). -/
theorem step_of_short_payload {s : State} {w : Word} {tail : List Byte} (hl : s.resetLine = false)
    (hc : s.cmd = wordBytes w ++ tail) (h : tail.length < payloadLen w) : step s = .fault .frameIncomplete := by
  have hd : decodeFrame s.cmd = .incomplete := by rw [hc, decodeFrame_wordBytes, if_pos h]
  exact step_of_incomplete hl (by simp [hc, wordBytes]) hd

/-- Settles O5: an unassigned OP decodes to an illegal word with no payload, and the OP values are those outside the
twelve codes. -/
theorem unassignedOpcodesFail : Obligations.UnassignedOpcodesFail := by
  refine ⟨opOfByte_eq_none_iff_gaps, length_unassigned, fun s b0 b1 b2 b3 tail hb hl hc => ?_, rfl⟩
  have hop : opOfByte (opField (wordOfBytes b0 b1 b2 b3)) = none := by rwa [opField_wordOfBytes]
  refine step_of_illegal_frame (p := []) hl (payloadLen_of_unassigned hop).symm ?_ (decodeWord_of_unassigned hop [])
  rw [hc, wordBytes_wordOfBytes]
  rfl

/-- Settles O6: a reserved field that is not zero makes the frame illegal, and an illegal frame takes its payload with
it. -/
theorem reservedBitsFail : Obligations.ReservedBitsFail :=
  ⟨fun _ _ payload _ hw hp hl hc => step_of_illegal_frame hl hp hc (decodeWord_of_reserved hw payload),
    fun _ p h => decodeWord_of_init h p⟩

/-- Settles O7: the bytes behind the word are too few, or they are the payload and a rest that the step leaves. -/
theorem payloadIsConsumedWhole : Obligations.PayloadIsConsumedWhole := by
  refine ⟨fun s w tail n hn hl hc => ?_, Frame.whole, fun i hi => ⟨_, frameOf_eq hi, bytes_of_frameOf (frameOf_eq hi)⟩⟩
  have hn : n = payloadLen w := hn
  subst hn
  refine ⟨step_of_short_payload hl hc, fun hle t h => ?_⟩
  refine step_cmd_of_frame (p := tail.take (payloadLen w)) hl (List.length_take_of_le hle) ?_ h
  rw [hc, List.append_assoc, List.take_append_drop]

end Sys2Proof.Machine
end

section
/-! The adapter's bound (41_adapter.md R130). -/

namespace Sys2Proof.Machine

/-- A success emits 0x00 and its data after the bytes already on the channel (60_exceptions.md R201). -/
theorem State.succeed_answers (s : State) (data : List Byte) : Answers s (s.succeed data) (0x00 :: data) :=
  ⟨rfl, rfl⟩

/-! XOR_IN and EXTRACT on either side of the bound. -/

section
variable {offset len : Byte} {p : List Byte}

theorem exec_xorIn_within (s : State) (h : offset.toNat + p.length ≤ 200) :
    exec (.xorIn offset p) s = .next ({ s with mem := s.mem.xorBytes offset.toNat p }.succeed []) := by
  rw [exec, execXorIn_eq, if_pos h]

theorem exec_xorIn_beyond (s : State) (h : offset.toNat + p.length > 200) :
    exec (.xorIn offset p) s = .next (s.raise .outOfRange) := by
  rw [exec, execXorIn_eq, if_neg (Nat.not_le_of_gt h)]

theorem exec_extract_within (s : State) (h : offset.toNat + len.toNat ≤ 200) :
    exec (.extract offset len) s = .next (s.succeed (s.mem.readBytes offset.toNat len.toNat)) := by
  rw [exec, execExtract_eq, if_pos h]

theorem exec_extract_beyond (s : State) (h : offset.toNat + len.toNat > 200) :
    exec (.extract offset len) s = .next (s.raise .outOfRange) := by
  rw [exec, execExtract_eq, if_neg (Nat.not_le_of_gt h)]

end

/-- Settles O40: the sum is within the bound or beyond it, and an access of no bytes is within it at every offset up to
200, where XorIn of nothing leaves S and EXTRACT has no data. -/
theorem adapterChecksBound : Obligations.AdapterChecksBound := by
  refine fun s offset => ⟨fun p => ⟨fun h => ?_, fun h => ?_⟩, fun len => ⟨fun h => ?_, fun h => ?_⟩,
    fun h => ⟨?_, ?_⟩⟩
  · exact ⟨_, exec_xorIn_beyond s h, State.raise_failed s .outOfRange⟩
  · exact ⟨_, exec_xorIn_within s h, State.succeed_answers _ []⟩
  · exact ⟨_, exec_extract_beyond s h, State.raise_failed s .outOfRange⟩
  · exact ⟨_, _, exec_extract_within s h, State.succeed_answers s _⟩
  · exact ⟨_, exec_xorIn_within (p := []) s h, fun _ => rfl, State.succeed_answers _ []⟩
  · exact ⟨_, exec_extract_within (len := 0) s h, fun _ => rfl, State.succeed_answers s []⟩

end Sys2Proof.Machine
end

section
/-! INIT's parameter check (43_hash_instance.md R161). -/

namespace Sys2Proof.Machine

/-! INIT on either side of the rate check. -/

section
variable {rate : Byte} (suffix outlen : Byte) (s : State)

theorem exec_init_accepted (h : 1 ≤ rate.toNat ∧ rate.toNat ≤ 200) :
    exec (.init rate suffix outlen) s = .next ((s.newInstance rate suffix outlen).succeed []) := by
  rw [exec, execInit_eq, if_pos h]

theorem exec_init_rejected (h : ¬(1 ≤ rate.toNat ∧ rate.toNat ≤ 200)) :
    exec (.init rate suffix outlen) s = .next (s.raise .outOfRange) := by
  rw [exec, execInit_eq, if_neg h]

end

/-- Settles O18: the check reads the rate alone. A rate that passes is bound with the suffix and the output length as
given; one that fails has the effect of the error OutOfRange. -/
theorem initChecksRate : Obligations.InitChecksRate := by
  refine fun rate suffix outlen s => ⟨fun h => ?_, fun h => ?_⟩
  · exact ⟨_, exec_init_accepted suffix outlen s h, State.succeed_answers _ [], rfl, rfl, rfl⟩
  · exact ⟨_, exec_init_rejected suffix outlen s h, State.raise_failed s .outOfRange⟩

end Sys2Proof.Machine
end

section
/-! The output formatter: the host's two readings of a digest (44_kshake320.md R183, R184). -/

namespace Sys2Proof.Machine

/-! The integer reading (R183). -/

/-- A byte string read little-endian, d[0] least significant. -/
def littleEndian (d : List Byte) : Nat := Nat.ofDigits 256 (d.map BitVec.toNat)

@[simp] theorem littleEndian_nil : littleEndian [] = 0 := rfl

@[simp] theorem littleEndian_cons (b : Byte) (d : List Byte) :
    littleEndian (b :: d) = b.toNat + 256 * littleEndian d := Nat.ofDigits_cons

theorem littleEndian_lt (d : List Byte) : littleEndian d < 2 ^ (8 * d.length) := by
  have hlt : ∀ x ∈ d.map BitVec.toNat, x < 256 := List.forall_mem_map.mpr fun b _ => b.isLt
  simpa [littleEndian, pow_mul] using Nat.ofDigits_lt_base_pow_length (by decide) hlt

/-- "The second form": the sum of the weighted bytes is the little-endian reading. -/
theorem sum_digestByte (d : List Byte) :
    ((List.range d.length).map fun j => digestByte d j * 2 ^ (8 * j)).sum = littleEndian d := by
  rw [littleEndian, Nat.ofDigits_eq_sum_mapIdx]
  congr 1
  refine List.ext_getElem (by simp) fun j hj _ => ?_
  have hd : j < d.length := by simpa using hj
  simp [digestByte, hd, pow_mul]

/-- "By expanding w_i": the first n words weigh what their 4n bytes weigh. -/
theorem sum_digestWord (d : List Byte) (n : Nat) :
    ((List.range n).map fun i => digestWord d i * 2 ^ (32 * i)).sum =
      ((List.range (4 * n)).map fun j => digestByte d j * 2 ^ (8 * j)).sum := by
  induction n with
  | zero => rfl
  | succ n ih =>
    rw [List.range_succ, List.map_append, List.sum_append, ih]
    simp only [Nat.mul_succ, List.range_succ, List.map_append, List.sum_append, List.map_cons, List.map_nil,
      List.sum_cons, List.sum_nil, digestWord]
    ring

theorem digestInt_eq_sum_digestByte (d : List Byte) :
    digestInt d = ((List.range 40).map fun j => digestByte d j * 2 ^ (8 * j)).sum := sum_digestWord d 10

theorem digestInt_eq_littleEndian {d : List Byte} (h : d.length = 40) : digestInt d = littleEndian d := by
  rw [digestInt_eq_sum_digestByte, ← sum_digestByte, h]

/-- Settles O58: the first form is the definition, the second the expansion of the words, and 40 bytes stay below
2^(8·40). -/
theorem digestIntIsLittleEndian : Obligations.DigestIntIsLittleEndian := by
  refine fun d h => ⟨rfl, digestInt_eq_sum_digestByte d, ?_⟩
  simpa only [digestInt_eq_littleEndian h, h, Nat.reduceMul] using littleEndian_lt d

/-! The digits of a byte (R184). -/

theorem toList_alphabet : "0123456789abcdef".toList = hexDigits := by decide

theorem hexDigit_mem (n : Nat) : hexDigit n ∈ hexDigits := by
  have hn : n % 16 < hexDigits.length := Nat.mod_lt n (by decide)
  rw [hexDigit, List.getD_eq_getElem _ _ hn]
  exact List.getElem_mem hn

theorem hexDigit_of_lt {n : Nat} (h : n < 16) : hexDigit n = hexDigits.getD n ' ' := by
  rw [hexDigit, Nat.mod_eq_of_lt h, List.getD_eq_getElem _ _ h, List.getD_eq_getElem _ _ h]

theorem hexDigit_congr {m n : Nat} (h : m % 16 = n % 16) : hexDigit m = hexDigit n := by
  rw [hexDigit, hexDigit, h]

/-- The high nibble of a byte is its quotient by 16 and the low nibble the remainder. -/
theorem hex2_eq (b : Byte) : hex2 b = [hexDigit (b.toNat / 16), hexDigit (b.toNat % 16)] := by
  have hhigh : (b >>> 4).toNat = b.toNat / 16 := by
    rw [BitVec.toNat_ushiftRight, Nat.shiftRight_eq_div_pow]
  have hlow : (b &&& 0xF).toNat = b.toNat % 16 := by
    rw [BitVec.toNat_and]
    exact Nat.and_two_pow_sub_one_eq_mod b.toNat 4
  rw [hex2, hhigh, hlow]

theorem hex2_eq_getD (b : Byte) :
    hex2 b = [hexDigits.getD (b.toNat / 16) ' ', hexDigits.getD (b.toNat % 16) ' '] := by
  have hb := b.isLt
  rw [hex2_eq, hexDigit_of_lt (by omega), hexDigit_of_lt (by omega)]

theorem hex2_subset (b : Byte) : hex2 b ⊆ hexDigits := by
  simp [hex2, hexDigit_mem]

/-! The display reading (R184). -/

@[simp] theorem displayHex_nil : displayHex [] = [] := rfl

@[simp] theorem displayHex_cons (b : Byte) (d : List Byte) : displayHex (b :: d) = displayHex d ++ hex2 b := by
  simp [displayHex]

/-- Two digits for each byte. -/
theorem length_displayHex (d : List Byte) : (displayHex d).length = 2 * d.length := by
  induction d with
  | nil => rfl
  | cons b d ih => simp [ih, hex2, Nat.mul_succ]

theorem displayHex_subset (d : List Byte) : displayHex d ⊆ hexDigits := by
  intro c hc
  obtain ⟨b, -, hb⟩ := List.mem_flatMap.mp hc
  exact hex2_subset b hb

/-- d[n-1] down to d[0]. -/
theorem reverse_eq_map_range (d : List Byte) :
    d.reverse = (List.range d.length).map fun i => d.getD (d.length - 1 - i) 0 := by
  refine List.ext_getElem (by simp) fun i hi _ => ?_
  have hd : d.length - 1 - i < d.length := by simp at hi; omega
  simp [hd]

/-- The last two digits of a number are those of its least significant byte. -/
theorem hexPadded_byte (b : Byte) (w m : Nat) :
    hexPadded (w + 2) (b.toNat + 256 * m) = hexPadded w m ++ hex2 b := by
  have hb := b.isLt
  have hrest : (b.toNat + 256 * m) / 16 / 16 = m := by omega
  have hhigh : hexDigit ((b.toNat + 256 * m) / 16) = hexDigit (b.toNat / 16) := hexDigit_congr (by omega)
  have hlow : hexDigit (b.toNat + 256 * m) = hexDigit (b.toNat % 16) := hexDigit_congr (by omega)
  simp only [hexPadded, hrest, hhigh, hlow, hex2_eq, List.append_assoc, List.cons_append, List.nil_append]

/-- The display reading is the integer reading in hexadecimal, two digits for each byte. -/
theorem displayHex_eq_hexPadded (d : List Byte) :
    displayHex d = hexPadded (2 * d.length) (littleEndian d) := by
  induction d with
  | nil => rfl
  | cons b d ih =>
    rw [displayHex_cons, ih, littleEndian_cons, List.length_cons, Nat.mul_succ, hexPadded_byte]

/-- Settles O59: the bytes from the last to the first, each as its two nibbles' digits, which are the digits of the
integer reading by induction on the digest. -/
theorem displayHexIsDigestInt : Obligations.DisplayHexIsDigestInt := by
  intro d h
  rw [toList_alphabet]
  refine ⟨?_, ?_, fun c hc => displayHex_subset d hc, ?_⟩
  · rw [displayHex, reverse_eq_map_range, h, List.flatMap_map]
    simp only [hex2_eq_getD]
  · rw [length_displayHex, h]
  · rw [displayHex_eq_hexPadded, digestInt_eq_littleEndian h, h]

end Sys2Proof.Machine
end

section
/-! The control commands (45_control.md R190, R192). -/

namespace Sys2Proof

/-- A command of format N carries no payload (30_encoding.md R71, R76). -/
theorem payloadLen_of_format_n {w : Word} {o : Op} (h : opField w = o.code) (hf : o.format = .n) :
    payloadLen w = 0 := by
  rw [payloadLen_of_op h]
  cases o with
  | status | clrErr | initK | pad | final | permute => rfl
  | init | absorb | squeeze | hash | xorIn | extract => cases hf

end Sys2Proof

namespace Sys2Proof.Machine

/-- A format N word with a non-zero bit below OP is a whole frame and has the effect of the error 0x04 alone
(30_encoding.md R77). -/
theorem step_of_reserved_format_n {s : State} {w : Word} {tail : List Byte} (o : Op) (hf : o.format = .n)
    (hop : opField w = o.code) (hr : w.extractLsb' 0 24 ≠ 0) (hl : s.resetLine = false)
    (hc : s.cmd = wordBytes w ++ tail) : ∃ t, step s = .next t ∧ Failed { s with cmd := tail } t 0x04 := by
  have hd : decodeWord w [] = .error .reservedBits := by
    rw [decodeWord_of_op hop, hf]
    exact if_neg hr
  refine step_of_illegal_frame (p := []) hl (payloadLen_of_format_n hop hf).symm ?_ hd
  rw [hc, List.append_nil]

/-! STATUS (R190). -/

/-- PHASE as STATUS emits it, in a byte. -/
theorem zeroExtend_phaseBits (p : Phase) : (phaseBits p).zeroExtend 8 =
    match p with | .idle => 0x00 | .absorbing => 0x01 | .squeezing => 0x02 | .done => 0x03 := by
  cases p <;> rfl

/-! OUT_CNT, low byte first. -/

theorem lowByte_eq_ofNat_mod (c : BitVec 16) : c.extractLsb' 0 8 = BitVec.ofNat 8 (c.toNat % 256) := by
  apply BitVec.eq_of_toNat_eq
  simp

theorem highByte_eq_ofNat_div (c : BitVec 16) : c.extractLsb' 8 8 = BitVec.ofNat 8 (c.toNat / 256) := by
  apply BitVec.eq_of_toNat_eq
  simp [Nat.shiftRight_eq_div_pow]

theorem exec_status (s : State) : exec .status s = .next (s.succeed (statusBytes s)) := rfl

/-- Settles O15: STATUS is a success whose data are the nine register bytes, with PHASE widened to a byte and OUT_CNT cut
into two; a reserved bit makes its word illegal. -/
theorem statusReadsRegisters : Obligations.StatusReadsRegisters := by
  refine ⟨fun s => ?_, decodeWord_of_op (o := .status) rfl [], fun s w tail hop hr hl hc => ?_, _, rfl, rfl⟩
  · rw [exec_status, statusBytes, zeroExtend_phaseBits, lowByte_eq_ofNat_mod, highByte_eq_ofNat_div]
    rfl
  · exact step_of_reserved_format_n .status rfl hop hr hl hc

/-! CLRERR (R192). -/

theorem exec_clrErr (s : State) : exec .clrErr s = .next ({ s with err := 0x00 }.succeed []) := rfl

/-- Settles O16: CLRERR is a success without data, a reserved bit makes its word illegal, and the worked example is
EXTRACT beyond the window, CLRERR and STATUS from reset. -/
theorem clrErrClearsErr : Obligations.ClrErrClearsErr := by
  refine ⟨exec_clrErr, decodeWord_of_op (o := .clrErr) rfl [], fun s w tail hop hr hl hc => ?_, ?_⟩
  · exact step_of_reserved_format_n .clrErr rfl hop hr hl hc
  · exact ⟨_, _, _, exec_extract_beyond State.reset (by decide), rfl, rfl, exec_clrErr _, rfl, exec_status _, rfl⟩

end Sys2Proof.Machine
end

section
/-! The reset state (70_reset_and_hazards.md R230). -/

namespace Sys2Proof.Machine

/-! The zero state space, as bytes and as lanes. -/

@[simp] theorem Memory.bytes_nil : Memory.bytes [] = List.replicate 200 0x00 := by
  simp [Memory.bytes, Memory.readBytes, List.map_const']

theorem byteAt_replicate_zero (m a : Nat) : byteAt (List.replicate m 0) a = 0 := by
  simp [byteAt, List.getD_eq_getElem?_getD]

/-- A lane of zero bytes is a sum of zeros (R21). -/
theorem laneOfBytes_replicate_zero (m n : Nat) : laneOfBytes (List.replicate m 0) n = 0 := by
  simp only [laneOfBytes, byteAt_replicate_zero]
  rfl

theorem toLanes_replicate_zero (m : Nat) : toLanes (List.replicate m 0) = List.replicate 25 0 := by
  refine List.eq_replicate_iff.mpr ⟨length_toLanes _, fun l hl => ?_⟩
  obtain ⟨n, -, rfl⟩ := List.mem_map.mp hl
  exact laneOfBytes_replicate_zero m n

/-! What a reset leaves (R231). -/

/-- A step with reset asserted that answers a next state is the reset. -/
theorem eq_takeReset_of_step {s t : State} (hl : s.resetLine = true) (h : step s = .next t) : t = s.takeReset := by
  rw [step_of_reset hl] at h
  split_ifs at h
  cases h
  rfl

/-- The reset state is what a reset of itself leaves, since it records no fault (R235). -/
theorem State.takeReset_reset : State.reset.takeReset = State.reset := rfl

/-- Settles O12: the reset state, too, is what a reset leaves, and a reset empties S and sets each register, both channels
and the index. -/
theorem resetState : Obligations.ResetState := by
  intro t ht
  obtain ⟨s, rfl⟩ : ∃ s : State, t = s.takeReset := by
    rcases ht with rfl | ⟨s, hl, hs⟩
    · exact ⟨State.reset, State.takeReset_reset.symm⟩
    · exact ⟨s, eq_takeReset_of_step hl hs⟩
  have hbytes : s.takeReset.mem.bytes = List.replicate 200 0x00 := Memory.bytes_nil
  have hlanes : toLanes s.takeReset.mem.bytes = List.replicate 25 0 := by
    rw [hbytes, toLanes_replicate_zero]
  exact ⟨hbytes, hlanes, rfl, rfl, rfl, rfl, rfl, rfl, rfl, rfl, rfl, rfl, rfl⟩

end Sys2Proof.Machine
end

section
/-! Encode and decode agree (30_encoding.md R71 to R82). -/

namespace Sys2Proof

/-! Encode, then decode. -/

/-- The operands of a command's own word and payload are the command's (R73, R82). -/
theorem operandsOf_commandWord (i : Instr) : operandsOf i.op (commandWord i) i.payload = i := by
  cases i with
  | init rate suffix outlen => simp [operandsOf, Instr.op, commandWord]
  | squeeze n => simp [operandsOf, Instr.op, commandWord]
  | xorIn offset p => simp [operandsOf, Instr.op, commandWord, Instr.payload]
  | extract offset len => simp [operandsOf, Instr.op, commandWord]
  | status | clrErr | initK | absorb | pad | final | hash | permute => rfl

theorem decodeWord_commandWord (i : Instr) : decodeWord (commandWord i) i.payload = .ok i := by
  rw [decodeWord_of_op (opField_commandWord i), if_pos (reservedField_commandWord i), operandsOf_commandWord]

theorem decodeFrame_encode {i : Instr} (h : i.wellFormed = true) (rest : List Byte) :
    decodeFrame (encode i ++ rest) = .instr i rest := by
  rw [encode, decodeFrame_frame _ _ _ (payloadLen_commandWord h).symm, decodeWord_commandWord]

/-- Settles O2: the word announces its payload, so the frame is whole, and its fields are the operands. -/
theorem encodeThenDecode : Obligations.EncodeThenDecode := fun _ rest h => decodeFrame_encode h rest

/-! Decode, then encode. -/

/-- A legal word: its OP value is a command's, the command's reserved field is zero, and its fields are the
operands. -/
theorem decodeWord_eq_ok {w : Word} {p : List Byte} {i : Instr} (h : decodeWord w p = .ok i) :
    ∃ o : Op, opField w = o.code ∧ reservedField o.format w = 0 ∧ i = operandsOf o w p := by
  cases ho : opOfByte (opField w) with
  | none => simp [decodeWord_of_unassigned ho] at h
  | some o =>
    have hop := opOfByte_eq_some ho
    rw [decodeWord_of_op hop] at h
    split_ifs at h with hr
    cases h
    exact ⟨o, hop, hr, rfl⟩

/-- A word of format N is its OP value and zeros (R71, R77). -/
theorem eq_of_format_n {w : Word} (h : w.extractLsb' 0 24 = 0) : w = wordOfBytes (opField w) 0 0 0 := by
  have hlow : w.toNat % 2 ^ 24 = 0 := by simpa using congrArg BitVec.toNat h
  apply BitVec.eq_of_toNat_eq
  rw [wordOfBytes_toNat, opField_toNat, show (0 : Byte).toNat = 0 from rfl]
  omega

/-- A word of format W is its OP value, A, B and a zero byte (R71, R77). -/
theorem eq_of_format_w {w : Word} (h : fieldC w = 0) : w = wordOfBytes (opField w) (fieldA w) (fieldB w) 0 := by
  rw [← h, wordOfBytes_fields]

/-- No bit of a legal word is lost in its operands (R71, R73, R77). -/
theorem commandWord_operandsOf {w : Word} {p : List Byte} {o : Op} (hop : opField w = o.code)
    (hr : reservedField o.format w = 0) (hp : p.length = payloadLen w) : commandWord (operandsOf o w p) = w := by
  rw [payloadLen_of_op hop] at hp
  cases o with
  | status | clrErr | initK | pad | final | permute =>
    rw [eq_of_format_n hr, hop]
    rfl
  | init =>
    rw [operandsOf, commandWord, ← show opField w = 0x10 from hop, wordOfBytes_fields]
  | absorb | hash =>
    have hC := (reservedField_eq_zero_iff (.inl rfl) w).mp hr
    have hlen : p.length = (fieldL16 w).toNat := hp
    have hL : BitVec.ofNat 16 p.length = fieldL16 w := by rw [hlen, BitVec.ofNat_toNat, BitVec.setWidth_eq]
    exact (congrArg₂ lengthWord hop.symm hL).trans (lengthWord_fields hC)
  | squeeze =>
    have hC := (reservedField_eq_zero_iff (.inl rfl) w).mp hr
    exact (congrArg (lengthWord · _) hop.symm).trans (lengthWord_fields hC)
  | xorIn =>
    have hC := (reservedField_eq_zero_iff (.inr rfl) w).mp hr
    have hlen : p.length = (fieldB w).toNat := hp
    have hB : BitVec.ofNat 8 p.length = fieldB w := by rw [hlen, BitVec.ofNat_toNat, BitVec.setWidth_eq]
    rw [operandsOf, commandWord, hB, ← show opField w = 0x40 from hop, ← eq_of_format_w hC]
  | extract =>
    have hC := (reservedField_eq_zero_iff (.inr rfl) w).mp hr
    rw [operandsOf, commandWord, ← show opField w = 0x41 from hop, ← eq_of_format_w hC]

/-- A command takes the whole payload its word announces, which its length field can say (R76, R82). -/
theorem operandsOf_payload {w : Word} {p : List Byte} {o : Op} (hop : opField w = o.code)
    (hp : p.length = payloadLen w) :
    (operandsOf o w p).payload = p ∧ (operandsOf o w p).wellFormed = true := by
  rw [payloadLen_of_op hop] at hp
  have hL := (fieldL16 w).isLt
  have hB := (fieldB w).isLt
  cases o with
  | absorb | hash =>
    have hlen : p.length = (fieldL16 w).toNat := hp
    exact ⟨rfl, decide_eq_true (by omega)⟩
  | xorIn =>
    have hlen : p.length = (fieldB w).toNat := hp
    exact ⟨rfl, decide_eq_true (by omega)⟩
  | status | clrErr | init | initK | pad | squeeze | final | extract | permute =>
    exact ⟨(List.eq_nil_of_length_eq_zero hp).symm, rfl⟩

/-- A whole legal frame is the frame of a well-formed command, and of that one alone. -/
theorem encode_of_decodeWord {w : Word} {p : List Byte} {i : Instr} (hp : p.length = payloadLen w)
    (h : decodeWord w p = .ok i) : i.wellFormed = true ∧ encode i = wordBytes w ++ p := by
  obtain ⟨o, hop, hr, rfl⟩ := decodeWord_eq_ok h
  obtain ⟨hpay, hwf⟩ := operandsOf_payload hop hp
  exact ⟨hwf, by rw [encode, commandWord_operandsOf hop hr hp, hpay]⟩

/-- Settles O3: bytes that decode are a whole frame and a rest, and a whole legal frame is its command's. -/
theorem decodeThenEncode : Obligations.DecodeThenEncode := by
  intro bs i rest h
  obtain ⟨f, tail, rfl⟩ := Machine.exists_frame_of_decodeFrame (by rw [h]; exact nofun)
  rw [Machine.decodeFrame_bytes] at h
  cases hd : decodeWord f.word f.payload with
  | error r => simp [hd] at h
  | ok j =>
    simp only [hd, Decoded.instr.injEq] at h
    obtain ⟨rfl, rfl⟩ := h
    obtain ⟨hwf, he⟩ := encode_of_decodeWord f.whole hd
    exact ⟨hwf, by rw [he]; rfl⟩

/-! The opcode table. -/

/-- The bits of a word that a command's format fixes: OP and the reserved field (R71, R77). -/
def formatMask : Format → Word
  | .n => wordOfBytes 0xFF 0xFF 0xFF 0xFF
  | .p => wordOfBytes 0xFF 0 0 0
  | .l | .w => wordOfBytes 0xFF 0 0 0xFF

/-- Every row's pattern is its OP value and zeros, and its mask is its format's (R72). -/
theorem pattern_mask_of_mem_opcodeTable :
    ∀ r ∈ opcodeTable, r.pattern = wordOfBytes r.op.code 0 0 0 ∧ r.mask = formatMask r.op.format := by decide

theorem exists_row (o : Op) : ∃ r ∈ opcodeTable, r.op = o := by
  cases o <;> decide

theorem row_unique : ∀ r ∈ opcodeTable, ∀ r' ∈ opcodeTable, r.op = r'.op → r = r' := by decide

theorem Op.code_injective {o o' : Op} (h : o.code = o'.code) : o = o' := by
  have := congrArg opOfByte h
  simpa using this

theorem wordOfBytes_and (a0 a1 a2 a3 b0 b1 b2 b3 : Byte) :
    wordOfBytes a0 a1 a2 a3 &&& wordOfBytes b0 b1 b2 b3 =
      wordOfBytes (a0 &&& b0) (a1 &&& b1) (a2 &&& b2) (a3 &&& b3) := by
  change (a0 ++ a1 ++ a2 ++ a3 &&& (b0 ++ b1 ++ b2 ++ b3) : BitVec (8 + 8 + 8 + 8)) = _
  rw [BitVec.and_append, BitVec.and_append, BitVec.and_append]
  rfl

theorem wordOfBytes_inj {a0 a1 a2 a3 b0 b1 b2 b3 : Byte} :
    wordOfBytes a0 a1 a2 a3 = wordOfBytes b0 b1 b2 b3 ↔ a0 = b0 ∧ a1 = b1 ∧ a2 = b2 ∧ a3 = b3 := by
  constructor
  · intro h
    have := congrArg wordBytes h
    simpa [wordBytes_wordOfBytes] using this
  · rintro ⟨rfl, rfl, rfl, rfl⟩
    rfl

/-- Bits 23:0 are zero exactly when the three bytes are (R70). -/
theorem reservedField_n_eq_zero_iff (w : Word) :
    reservedField .n w = 0 ↔ fieldA w = 0 ∧ fieldB w = 0 ∧ fieldC w = 0 := by
  have hlow : (w.extractLsb' 0 24).toNat = w.toNat % 2 ^ 24 := by simp
  simp only [reservedField, ← BitVec.toNat_inj, fieldA_toNat, fieldB_toNat, fieldC_toNat, hlow,
    BitVec.ofNat_eq_ofNat, BitVec.toNat_ofNat, Nat.zero_mod]
  omega

/-- Under its format's mask, a word is OP and zeros exactly when OP is as given and the reserved field is zero. -/
theorem and_formatMask_eq_iff (f : Format) (w : Word) (b : Byte) :
    w &&& formatMask f = wordOfBytes b 0 0 0 ↔ opField w = b ∧ reservedField f w = 0 := by
  have hall : ∀ x : Byte, x &&& 0xFF = x := fun x => BitVec.and_allOnes
  have hnone : ∀ x : Byte, x &&& 0 = 0 := fun x => BitVec.and_zero
  conv_lhs => rw [← wordOfBytes_fields w]
  cases f with
  | n => simp only [formatMask, wordOfBytes_and, wordOfBytes_inj, hall, reservedField_n_eq_zero_iff]
  | p => simp only [formatMask, wordOfBytes_and, wordOfBytes_inj, hall, hnone, and_self, reservedField]
  | l | w =>
    rw [reservedField_eq_zero_iff (by decide)]
    simp only [formatMask, wordOfBytes_and, wordOfBytes_inj, hall, hnone, true_and]

/-- A row covers the words with its OP value and a zero reserved field. -/
theorem covers_iff {r : OpRow} (hr : r ∈ opcodeTable) (w : Word) :
    r.covers w = true ↔ opField w = r.op.code ∧ reservedField r.op.format w = 0 := by
  obtain ⟨hpat, hmask⟩ := pattern_mask_of_mem_opcodeTable r hr
  rw [OpRow.covers, beq_iff_eq, hpat, hmask, and_formatMask_eq_iff]

@[simp] theorem op_operandsOf (o : Op) (w : Word) (p : List Byte) : (operandsOf o w p).op = o := by
  cases o <;> rfl

/-- Settles O4: a row covers exactly the words that decode to its command, and OP picks the row. -/
theorem legalWordsAreTheTable : Obligations.LegalWordsAreTheTable := by
  refine ⟨fun w p => ⟨fun i hi => ?_, fun r hr hc => ?_⟩, fun r hr r' hr' w hc hc' => ?_⟩
  · obtain ⟨o, hop, hres, rfl⟩ := decodeWord_eq_ok hi
    obtain ⟨r, hr, rfl⟩ := exists_row o
    exact ⟨r, hr, (covers_iff hr w).mpr ⟨hop, hres⟩, (op_operandsOf _ w p).symm⟩
  · obtain ⟨hop, hres⟩ := (covers_iff hr w).mp hc
    exact ⟨operandsOf r.op w p, by rw [decodeWord_of_op hop, if_pos hres], op_operandsOf _ w p⟩
  · obtain ⟨hop, -⟩ := (covers_iff hr w).mp hc
    obtain ⟨hop', -⟩ := (covers_iff hr' w).mp hc'
    exact row_unique r hr r' hr' (Op.code_injective (hop.symm.trans hop'))

/-- Settles O1: the decoder is evaluated on each of the twenty fixed frames. -/
theorem decodeExampleWords : Obligations.DecodeExampleWords := by
  unfold Obligations.DecodeExampleWords
  decide +kernel

end Sys2Proof
end

section
/-! Everything a command does, in one equation for all of them: its error, or its effect and its output
(60_exceptions.md R201 to R203). -/

namespace Sys2Proof.Machine

/-- The state a command leaves when no check fails, before its response is emitted. -/
def effect (i : Instr) (s : State) : State :=
  match i with
  | .status | .extract _ _ => s
  | .clrErr => { s with err := 0x00 }
  | .init rate suffix outlen => s.newInstance rate suffix outlen
  | .initK => s.initK
  | .absorb p => s.absorbBytes p
  | .pad => s.padAndSwitch
  | .squeeze n => (s.squeezeBytes n.toNat).2
  | .final => (s.padAndSwitch.squeezeBytes s.outlen.toNat).2
  | .hash p => ((s.hashPadded p).squeezeBytes 40).2
  | .xorIn offset p => { s with mem := s.mem.xorBytes offset.toNat p }
  | .permute => s.permute

/-- The data a command emits after 00 when no check fails. -/
def output (i : Instr) (s : State) : List Byte :=
  match i with
  | .status => statusBytes s
  | .squeeze n => (s.squeezeBytes n.toNat).1
  | .final => (s.padAndSwitch.squeezeBytes s.outlen.toNat).1
  | .hash p => ((s.hashPadded p).squeezeBytes 40).1
  | .extract offset len => s.mem.readBytes offset.toNat len.toNat
  | .clrErr | .init _ _ _ | .initK | .absorb _ | .pad | .xorIn _ _ | .permute => []

/-- Whether the sponge's own accesses fall in addresses 0..199 (41_adapter.md R134). -/
def accessesInState (i : Instr) (s : State) : Bool :=
  match i with
  | .absorb p => absorbInState s.rate s.pos p.length
  | .pad => padInState s.rate s.pos
  | .squeeze n => squeezeInState s.rate s.sqzPos n.toNat
  | .final => padInState s.rate s.pos && squeezeInState s.rate 0 s.outlen.toNat
  | .status | .clrErr | .init _ _ _ | .initK | .hash _ | .xorIn _ _ | .extract _ _ | .permute => true

/-- A command fails with its check's error; else it has its effect, or stops on an access outside S. -/
theorem exec_eq (i : Instr) (s : State) :
    (∃ c, responseCode i s = codeByte c ∧ exec i s = .next (s.raise c)) ∨
    (responseCode i s = 0x00 ∧ exec i s =
      if accessesInState i s then .next ((effect i s).succeed (output i s)) else .fault .noSuchStateByte) := by
  cases i with
  | status | clrErr | initK | hash | permute => exact .inr ⟨rfl, rfl⟩
  | init rate suffix outlen =>
    by_cases h : 1 ≤ rate.toNat ∧ rate.toNat ≤ 200
    · exact .inr ⟨if_pos h, exec_init_accepted suffix outlen s h⟩
    · exact .inl ⟨.outOfRange, if_neg h, exec_init_rejected suffix outlen s h⟩
  | absorb p =>
    by_cases h : s.phase = .absorbing
    · exact .inr ⟨if_pos h, (execAbsorb_eq p s).trans (if_pos h)⟩
    · exact .inl ⟨.invalidState, if_neg h, (execAbsorb_eq p s).trans (if_neg h)⟩
  | pad =>
    by_cases h : s.phase = .absorbing
    · exact .inr ⟨if_pos h, (execPad_eq s).trans (if_pos h)⟩
    · exact .inl ⟨.invalidState, if_neg h, (execPad_eq s).trans (if_neg h)⟩
  | squeeze n =>
    by_cases h : s.phase = .idle ∨ s.phase = .absorbing
    · exact .inl ⟨.invalidState, if_pos h, (execSqueeze_eq n s).trans (if_pos h)⟩
    · exact .inr ⟨if_neg h, (execSqueeze_eq n s).trans (if_neg h)⟩
  | final =>
    have he := execFinal_eq s
    have hcode : responseCode .final s =
      if s.phase = .idle then 0x02 else if s.phase = .absorbing then 0x00 else 0x03 := rfl
    by_cases h0 : s.phase = .idle
    · exact .inl ⟨.invalidState, hcode.trans (if_pos h0), he.trans (if_pos h0)⟩
    · rw [if_neg h0] at he hcode
      by_cases h : s.phase = .absorbing
      · exact .inr ⟨hcode.trans (if_pos h), he.trans (if_pos h)⟩
      · exact .inl ⟨.alreadyFinalized, hcode.trans (if_neg h), he.trans (if_neg h)⟩
  | xorIn offset p =>
    by_cases h : offset.toNat + p.length ≤ 200
    · exact .inr ⟨if_pos h, exec_xorIn_within s h⟩
    · exact .inl ⟨.outOfRange, if_neg h, exec_xorIn_beyond s (Nat.lt_of_not_le h)⟩
  | extract offset len =>
    by_cases h : offset.toNat + len.toNat ≤ 200
    · exact .inr ⟨if_pos h, exec_extract_within s h⟩
    · exact .inl ⟨.outOfRange, if_neg h, exec_extract_beyond s (Nat.lt_of_not_le h)⟩

section
variable {i : Instr} {s t : State}

/-- A failing command takes its check's error and does nothing else. -/
theorem exec_of_error {c : ErrorCode} (h : responseCode i s = codeByte c) : exec i s = .next (s.raise c) := by
  obtain ⟨d, hd, he⟩ | ⟨h0, -⟩ := exec_eq i s
  · rw [he, codeByte_injective (hd.symm.trans h)]
  · exact absurd (h.symm.trans h0) (codeByte_ne_zero c)

theorem exec_of_accepted (h : responseCode i s = 0x00) : exec i s =
    if accessesInState i s then .next ((effect i s).succeed (output i s)) else .fault .noSuchStateByte := by
  obtain ⟨c, hc, -⟩ | ⟨-, he⟩ := exec_eq i s
  · exact absurd (hc.symm.trans h) (codeByte_ne_zero c)
  · exact he

theorem exec_of_success (h : responseCode i s = 0x00) (hin : accessesInState i s = true) :
    exec i s = .next ((effect i s).succeed (output i s)) := by
  rw [exec_of_accepted h, if_pos hin]

theorem exec_of_outside (h : responseCode i s = 0x00) (hin : accessesInState i s = false) :
    exec i s = .fault .noSuchStateByte := by
  rw [exec_of_accepted h, hin]
  rfl

/-- What a command that answers a next state has done. -/
theorem exec_next (h : exec i s = .next t) :
    (∃ c, responseCode i s = codeByte c ∧ t = s.raise c) ∨
    (responseCode i s = 0x00 ∧ accessesInState i s = true ∧ t = (effect i s).succeed (output i s)) := by
  obtain ⟨c, hc, he⟩ | ⟨h0, he⟩ := exec_eq i s <;> rw [he] at h
  · exact .inl ⟨c, hc, (Host.Outcome.next.inj h).symm⟩
  · split_ifs at h with hin
    exact .inr ⟨h0, hin, (Host.Outcome.next.inj h).symm⟩

theorem exec_next_of_accepted (h0 : responseCode i s = 0x00) (h : exec i s = .next t) :
    accessesInState i s = true ∧ t = (effect i s).succeed (output i s) := by
  obtain ⟨c, hc, -⟩ | ⟨-, hin, ht⟩ := exec_next h
  · exact absurd (hc.symm.trans h0) (codeByte_ne_zero c)
  · exact ⟨hin, ht⟩

end

/-! When the checks pass (60_exceptions.md R202). -/

section
variable {s : State}

theorem responseCode_init_eq_zero_iff {rate suffix outlen : Byte} :
    responseCode (.init rate suffix outlen) s = 0x00 ↔ 1 ≤ rate.toNat ∧ rate.toNat ≤ 200 :=
  ite_eq_left_iff.trans (by simp)

theorem responseCode_absorb_eq_zero_iff {p : List Byte} :
    responseCode (.absorb p) s = 0x00 ↔ s.phase = .absorbing := ite_eq_left_iff.trans (by simp)

theorem responseCode_pad_eq_zero_iff : responseCode .pad s = 0x00 ↔ s.phase = .absorbing :=
  ite_eq_left_iff.trans (by simp)

theorem responseCode_squeeze_eq_zero_iff {n : BitVec 16} :
    responseCode (.squeeze n) s = 0x00 ↔ s.phase = .squeezing ∨ s.phase = .done :=
  ite_eq_right_iff.trans (by simp [Phase.squeezing_or_done_iff])

theorem responseCode_final_eq_zero_iff : responseCode .final s = 0x00 ↔ s.phase = .absorbing := by
  cases hp : s.phase <;> simp [responseCode, hp]

theorem responseCode_xorIn_eq_zero_iff {offset : Byte} {p : List Byte} :
    responseCode (.xorIn offset p) s = 0x00 ↔ offset.toNat + p.length ≤ 200 := ite_eq_left_iff.trans (by simp)

end

end Sys2Proof.Machine
end

section
/-! The invariants (10_state.md R32): every operation keeps them, so every command and every step does. -/

namespace Sys2Proof.Machine

/-- The invariants hold at reset, whatever fault the run has recorded. -/
theorem State.inv_takeReset (s : State) : s.takeReset.Inv :=
  ⟨rfl, fun _ => ⟨rfl, rfl, rfl, rfl, rfl, rfl⟩, fun h => absurd rfl h, nofun, nofun, nofun, nofun, Nat.zero_le 4,
    fun h => absurd rfl h⟩

/-- Settles O55: State.reset is what a reset of itself leaves. -/
theorem invAtReset : Obligations.InvAtReset := State.inv_takeReset State.reset

/-! The error registers (60_exceptions.md R203, R208). -/

theorem stickyErr_le {err : Byte} (h : err.toNat ≤ 4) (c : ErrorCode) : (stickyErr err c).toNat ≤ 4 := by
  have hcode : (codeByte c).toNat ≤ 4 := by cases c <;> decide
  rw [stickyErr]
  split_ifs <;> assumption

theorem stickyFault_ne_none (f : Option ErrorCode) (c : ErrorCode) : stickyFault f c ≠ none := by
  cases f <;> exact nofun

section
variable {s : State}

theorem State.Inv.raise (h : s.Inv) (c : ErrorCode) : (s.raise c).Inv := by
  obtain ⟨hwf, hidle, hrate, habs, hsq, hcnt, hdone, herr, -⟩ := h
  exact ⟨hwf, hidle, hrate, habs, hsq, hcnt, hdone, stickyErr_le herr c, fun _ => stickyFault_ne_none _ c⟩

/-- The invariants do not speak of the response channel and the frame index. -/
theorem State.Inv.succeed (h : s.Inv) (data : List Byte) : (s.succeed data).Inv := h

/-- The invariants do not speak of the command channel. -/
theorem State.Inv.withCmd (h : s.Inv) (bs : List Byte) : { s with cmd := bs }.Inv := h

theorem State.Inv.clearErr (h : s.Inv) : { s with err := 0x00 }.Inv := by
  obtain ⟨hwf, hidle, hrate, habs, hsq, hcnt, hdone, -, -⟩ := h
  exact ⟨hwf, hidle, hrate, habs, hsq, hcnt, hdone, Nat.zero_le 4, fun h => absurd rfl h⟩

/-- Of S the invariants ask the canonical form alone. -/
theorem State.Inv.withMem (h : s.Inv) {m : Memory} (hm : m.wf = true) : { s with mem := m }.Inv := ⟨hm, h.2⟩

/-! The operations on an instance. -/

theorem State.Inv.newInstance (h : s.Inv) {rate : Byte} (hr : 1 ≤ rate.toNat ∧ rate.toNat ≤ 200)
    (suffix outlen : Byte) : (s.newInstance rate suffix outlen).Inv := by
  obtain ⟨-, -, -, -, -, -, -, herr, hrec⟩ := h
  exact ⟨rfl, nofun, fun _ => hr, fun _ => ⟨hr.1, rfl, rfl⟩, nofun, nofun, nofun, herr, hrec⟩

/-- In ABSORBING the invariants bound RATE and POS, which is what the sponge's accesses ask. -/
theorem State.Inv.absorbing (h : s.Inv) (hp : s.phase = .absorbing) :
    s.rate.toNat ≤ 200 ∧ s.pos.toNat < s.rate.toNat := by
  obtain ⟨-, -, hrate, habs, -⟩ := h
  exact ⟨(hrate (by simp [hp])).2, (habs hp).1⟩

/-- In SQUEEZING and DONE they bound RATE and SQZ_POS. -/
theorem State.Inv.squeezing (h : s.Inv) (hp : s.phase = .squeezing ∨ s.phase = .done) :
    1 ≤ s.rate.toNat ∧ s.rate.toNat ≤ 200 ∧ s.sqzPos.toNat ≤ s.rate.toNat := by
  obtain ⟨-, -, hrate, -, hsq, -⟩ := h
  obtain ⟨h1, h200⟩ := hrate (by rcases hp with hp | hp <;> simp [hp])
  exact ⟨h1, h200, (hsq hp).2⟩

theorem State.Inv.absorbBytes (h : s.Inv) (hp : s.phase = .absorbing) (p : List Byte) : (s.absorbBytes p).Inv := by
  obtain ⟨h200, hlt⟩ := h.absorbing hp
  obtain ⟨hwf, -, hrate, habs, -, -, -, herr, hrec⟩ := h
  obtain ⟨-, hq, hc⟩ := habs hp
  have hmem := State.wf_absorbBytes p s h200 hlt hwf
  have hpos := State.absorbBytes_pos_lt p s hlt
  rw [State.absorbBytes_frame]
  exact ⟨hmem, by simp [State.idleClear, hp], hrate, fun _ => ⟨hpos, hq, hc⟩, by simp [State.squeezeLegal, hp],
    by simp [State.squeezeCount, hp], by simp [State.doneCount, hp], herr, hrec⟩

theorem State.Inv.padAndSwitch (h : s.Inv) (hp : s.phase = .absorbing) : s.padAndSwitch.Inv := by
  obtain ⟨-, -, hrate, -, -, -, -, herr, hrec⟩ := h
  have hr := hrate (by simp [hp])
  exact ⟨State.wf_padAndSwitch s, nofun, fun _ => hr, nofun, fun _ => ⟨rfl, Nat.zero_le _⟩, fun _ => .inr rfl, nofun,
    herr, hrec⟩

/-- The loop of SqueezeBytes, before OUT_CNT and PHASE are written. -/
theorem State.Inv.squeezeLoop (h : s.Inv) (hp : s.phase = .squeezing ∨ s.phase = .done) (n : Nat) :
    (State.squeezeLoop n s).2.Inv := by
  obtain ⟨h1, -, hq⟩ := h.squeezing hp
  have hle := State.squeezeLoop_sqzPos_le n s h1 hq
  obtain ⟨hwf, -, hrate, -, hsq, hcnt, hdone, herr, hrec⟩ := h
  have hmem := State.wf_squeezeLoop n s hwf
  have hbusy := (Phase.squeezing_or_done_iff s.phase).mp hp
  rw [State.squeezeLoop_frame]
  exact ⟨hmem, fun hi => absurd (.inl hi) hbusy, hrate, fun ha => absurd (.inr ha) hbusy,
    fun hp => ⟨(hsq hp).1, hle⟩, hcnt, hdone, herr, hrec⟩

/-- OUT_CNT only grows, and PHASE is DONE from OUTLEN on (42_sponge.md R146). -/
theorem State.Inv.countSqueezed (h : s.Inv) (hp : s.phase = .squeezing ∨ s.phase = .done) (n : Nat) :
    (s.countSqueezed n).Inv := by
  obtain ⟨hwf, -, hrate, -, hsq, -, hdone, herr, hrec⟩ := h
  have hbusy := (Phase.squeezing_or_done_iff s.phase).mp hp
  have hr := hrate fun hi => hbusy (.inl hi)
  have hc := saturatingAdd_toNat s.outCnt n
  have ho := s.outlen.isLt
  have hlt := s.outCnt.isLt
  by_cases hle : s.outlen.toNat ≤ (saturatingAdd s.outCnt n).toNat
  · have hph : phaseAfterSqueeze s.phase (saturatingAdd s.outCnt n) s.outlen = .done := if_pos hle
    rw [State.countSqueezed, hph]
    exact ⟨hwf, nofun, fun _ => hr, nofun, fun _ => hsq hp, nofun, fun _ => hle, herr, hrec⟩
  · have hph : phaseAfterSqueeze s.phase (saturatingAdd s.outCnt n) s.outlen = s.phase := if_neg hle
    rw [State.countSqueezed, hph]
    refine ⟨hwf, fun hi => absurd (.inl hi) hbusy, fun _ => hr, fun ha => absurd (.inr ha) hbusy, fun _ => hsq hp,
      fun _ => .inl (Nat.lt_of_not_le hle), fun hd => ?_, herr, hrec⟩
    have := hdone hd
    omega

theorem State.Inv.squeezeBytes (h : s.Inv) (hp : s.phase = .squeezing ∨ s.phase = .done) (n : Nat) :
    (s.squeezeBytes n).2.Inv := (h.squeezeLoop hp n).countSqueezed (by simpa using hp) n

end

/-! Commands and steps. -/

theorem kshakeRate_legal : 1 ≤ Config.kshakeRate.toNat ∧ Config.kshakeRate.toNat ≤ 200 :=
  ⟨one_le_kshakeRate, kshakeRate_le.trans (by decide)⟩

/-- Every command's effect keeps the invariants where its check passes. -/
theorem effect_inv {i : Instr} {s : State} (h : s.Inv) (hc : responseCode i s = 0x00) : (effect i s).Inv := by
  cases i with
  | status | extract => exact h
  | clrErr => exact h.clearErr
  | init => exact h.newInstance (responseCode_init_eq_zero_iff.mp hc) _ _
  | initK => exact h.newInstance kshakeRate_legal _ _
  | absorb p => exact h.absorbBytes (responseCode_absorb_eq_zero_iff.mp hc) p
  | pad => exact h.padAndSwitch (responseCode_pad_eq_zero_iff.mp hc)
  | squeeze n => exact h.squeezeBytes (responseCode_squeeze_eq_zero_iff.mp hc) _
  | final => exact (h.padAndSwitch (responseCode_final_eq_zero_iff.mp hc)).squeezeBytes (.inl rfl) _
  | hash p =>
    have habs : (s.initK.absorbBytes p).Inv := (h.newInstance kshakeRate_legal _ _).absorbBytes rfl p
    exact (habs.padAndSwitch (by simp)).squeezeBytes (.inl rfl) 40
  | xorIn => exact h.withMem (Memory.wf_xorBytes h.1 (responseCode_xorIn_eq_zero_iff.mp hc))
  | permute => exact h.withMem (Memory.wf_permute _)

theorem exec_inv {i : Instr} {s t : State} (hs : s.Inv) (h : exec i s = .next t) : t.Inv := by
  obtain ⟨c, -, rfl⟩ | ⟨h0, -, rfl⟩ := exec_next h
  · exact hs.raise c
  · exact (effect_inv hs h0).succeed _

/-- Settles O56: a step waits, resets, takes the error 0x04 or runs a command, and each keeps the invariants. -/
theorem stepKeepsInv : Obligations.StepKeepsInv := by
  intro s t hs h
  obtain ⟨-, -, rfl⟩ | ⟨-, -, -, rfl⟩ | ⟨-, r, rest, -, rfl⟩ | ⟨-, i, rest, -, he⟩ := step_cases h
  · exact hs
  · exact s.inv_takeReset
  · exact (hs.withCmd rest).raise .illegalCommand
  · exact exec_inv (hs.withCmd rest) he

/-- The invariants put the accesses of every command that passes its check in S (41_adapter.md R134). -/
theorem accessesInState_of_inv {i : Instr} {s : State} (h : s.Inv) (hc : responseCode i s = 0x00) :
    accessesInState i s = true := by
  cases i with
  | absorb p =>
    obtain ⟨h200, hlt⟩ := h.absorbing (responseCode_absorb_eq_zero_iff.mp hc)
    exact absorbInState_of_legal h200 _ hlt
  | pad =>
    obtain ⟨h200, hlt⟩ := h.absorbing (responseCode_pad_eq_zero_iff.mp hc)
    exact padInState_of_legal h200 hlt
  | squeeze n =>
    obtain ⟨h1, h200, hq⟩ := h.squeezing (responseCode_squeeze_eq_zero_iff.mp hc)
    exact squeezeInState_of_legal h1 h200 _ hq
  | final =>
    obtain ⟨h200, hlt⟩ := h.absorbing (responseCode_final_eq_zero_iff.mp hc)
    exact Bool.and_eq_true_iff.mpr ⟨padInState_of_legal h200 hlt,
      squeezeInState_of_legal (Nat.zero_lt_of_lt hlt) h200 _ (Nat.zero_le _)⟩
  | status | clrErr | init | initK | hash | xorIn | extract | permute => rfl

/-- Settles O48: a command answers its error, or its accesses are in S. -/
theorem everyCommandCompletes : Obligations.EveryCommandCompletes := by
  intro i s h
  obtain ⟨c, -, he⟩ | ⟨h0, -⟩ := exec_eq i s
  · exact ⟨_, he⟩
  · exact ⟨_, exec_of_success h0 (accessesInState_of_inv h h0)⟩

end Sys2Proof.Machine
end

section
/-! Waits, resets and incomplete frames at a frame boundary, and the elements of a run
(70_reset_and_hazards.md R231, R236, R240). -/

namespace Sys2Proof.Machine

/-- Settles O9: `step_of_instr` is the statement. -/
theorem stepRunsDecodedCommand : Obligations.StepRunsDecodedCommand := fun _ _ _ hl hd => step_of_instr hl hd

/-- Settles O10: a step with reset asserted is decided by the response channel and by whether the command channel's
bytes are whole frames. -/
theorem engineWaitsOrResets : Obligations.EngineWaitsOrResets := by
  refine fun s => ⟨step_of_idle, fun hl hr fs hc => ?_, fun hl hr => ?_, fun hl hr hc => ?_⟩
  · rw [step_of_reset hl, if_pos hr, if_pos ((noPartialFrame_iff _).mpr ⟨fs, hc⟩)]
    rfl
  · rw [step_of_reset hl, if_neg hr]
  · rw [step_of_reset hl, if_pos hr, if_neg fun hw => not_exists.mpr hc ((noPartialFrame_iff _).mp hw)]

/-! Beginnings of a frame (R240). -/

/-- A frame has at least the four bytes of its word. -/
theorem decodeFrame_of_length_lt {bs : List Byte} (h : bs.length < 4) : decodeFrame bs = .incomplete := by
  by_contra hd
  obtain ⟨f, tail, rfl⟩ := exists_frame_of_decodeFrame hd
  have := length_bytes_pos f
  rw [List.length_append] at h
  omega

theorem decodeFrame_take_encode {i : Instr} {n : Nat} (hi : i.wellFormed = true) (h : n < (encode i).length) :
    decodeFrame ((encode i).take n) = .incomplete := by
  by_cases h4 : n < 4
  · exact decodeFrame_of_length_lt (by rw [List.length_take]; omega)
  · have hp := payloadLen_commandWord hi
    rw [encode, List.length_append, length_wordBytes] at h
    rw [encode, List.take_append, List.take_of_length_le (by rw [length_wordBytes]; omega), decodeFrame_wordBytes,
      length_wordBytes, if_pos (by rw [List.length_take]; omega)]

/-- Settles O11: fewer bytes than the word, or fewer than the payload behind it. -/
theorem incompleteFrameIsStuck : Obligations.IncompleteFrameIsStuck := by
  intro s i n hi h0 hn hl hc
  have hne : s.cmd ≠ [] := by
    rw [hc]
    exact List.ne_nil_of_length_pos (by rw [List.length_take]; omega)
  exact step_of_incomplete hl hne (by rw [hc, decodeFrame_take_encode hi hn])

/-! The elements of a run (R236). -/

section
variable {s : State}

/-- On an empty channel the frame sent is all there is. -/
theorem State.send_cmd_of_nil (h : s.cmd = []) (f : Frame) : (s.send f).cmd = f.bytes := by
  rw [State.send_cmd, h, List.nil_append]

/-- With the frame taken off again, the engine is as before it was sent. -/
theorem State.send_taken (h : s.cmd = []) (f : Frame) : { s.send f with cmd := [] } = s := by
  rw [← h]
  rfl

theorem step_send_instr {i : Instr} {f : Frame} (hc : s.cmd = []) (hl : s.resetLine = false)
    (hf : frameOf i = some f) (hi : i.wellFormed = true) : step (s.send f) = exec i s := by
  have hd : decodeFrame (s.send f).cmd = .instr i [] := by
    rw [State.send_cmd_of_nil hc, bytes_of_frameOf hf, ← List.append_nil (encode i), decodeFrame_encode hi]
  rw [step_of_instr (s := s.send f) hl hd, State.send_taken hc]

theorem step_send_illegal {f : Frame} {e : DecodeReject} (hc : s.cmd = []) (hl : s.resetLine = false)
    (hd : decodeWord f.word f.payload = .error e) : step (s.send f) = .next (s.raise .illegalCommand) := by
  have hd : decodeFrame (s.send f).cmd = .illegal e [] := by
    rw [State.send_cmd_of_nil hc, ← List.append_nil f.bytes, decodeFrame_bytes, hd]
  rw [step_of_illegal (s := s.send f) hl hd, State.send_taken hc]

/-- Once the host has read every response byte, a reset acts on an empty channel. -/
theorem step_assertReset (hc : s.cmd = []) :
    step (s.readResponse s.resp.length).2.assertReset = .next s.takeReset := by
  have hresp : (s.readResponse s.resp.length).2.assertReset.resp = [] := List.drop_length
  have hcmd : (s.readResponse s.resp.length).2.assertReset.cmd = [] := hc
  rw [step_of_reset rfl, if_pos hresp, hcmd, if_pos (by rfl)]
  rfl

end

/-- Settles O14: a frame sent on an empty channel is the one the step takes, and before a reset the response channel
is read empty. -/
theorem runExecutesFrames : Obligations.RunExecutesFrames := by
  refine fun r hc => ⟨fun i f hl hf hi => ?_, fun f e hl hd => ?_, ?_⟩
  · rw [RunState.move, step_send_instr hc hl hf hi]
  · rw [RunState.move, step_send_illegal hc hl hd]
    rfl
  · have hread : r.readAll.collected = r.collected ++ r.engine.resp :=
      congrArg (r.collected ++ ·) (List.take_length (l := r.engine.resp))
    have hstep : step r.readAll.engine.assertReset = .next r.engine.takeReset := step_assertReset hc
    rw [RunState.move, hstep, RunState.after, hread]
    rfl

end Sys2Proof.Machine
end

section
/-! What every command's response, profile and error registers are (60_exceptions.md R201 to R208;
70_reset_and_hazards.md R244). -/

namespace Sys2Proof.Machine

/-- Settles O47: a command took its check's error, or it succeeded with the data of its rule. -/
theorem responseFollowsErrorTable : Obligations.ResponseFollowsErrorTable := by
  intro i s t h
  obtain ⟨c, hc, rfl⟩ | ⟨h0, u, data, rfl, hlen, hresp, hk, -, -, hfault⟩ := exec_cases h
  · rw [hc]
    exact ⟨fun h0 => absurd h0 (codeByte_ne_zero c), fun _ => s.raise_failed c⟩
  · have hans : Answers s (u.succeed data) (0x00 :: data) :=
      ⟨by rw [State.succeed_resp, hresp], by rw [State.succeed_k, hk]⟩
    exact ⟨fun _ => ⟨data, hlen, hans, hfault⟩, fun hne => absurd h0 hne⟩

/-- No effect but those of INIT, INITK and HASH writes the profile. -/
theorem effect_profile {i : Instr} (s : State) (h1 : i.op ≠ .init) (h2 : i.op ≠ .initK) (h3 : i.op ≠ .hash) :
    SameProfile s (effect i s) := by
  cases i with
  | init => exact absurd rfl h1
  | initK => exact absurd rfl h2
  | hash => exact absurd rfl h3
  | absorb | squeeze | final => simp [SameProfile, effect]
  | status | clrErr | pad | xorIn | extract | permute => exact ⟨rfl, rfl, rfl⟩

/-- Settles O50: an error writes no profile register, and an effect only those three commands'. -/
theorem profileIsFixed : Obligations.ProfileIsFixed := by
  intro i s t h h1 h2 h3
  obtain ⟨c, -, rfl⟩ | ⟨-, -, rfl⟩ := exec_next h
  · exact ⟨rfl, rfl, rfl⟩
  · exact effect_profile s h1 h2 h3

/-! ERR (10_state.md R31). -/

/-- No effect but CLRERR's writes ERR. -/
theorem effect_err {i : Instr} (s : State) (h : i ≠ .clrErr) : (effect i s).err = s.err := by
  cases i with
  | clrErr => exact absurd rfl h
  | absorb | squeeze | final | hash => simp [effect, State.hashPadded]
  | status | init | initK | pad | xorIn | extract | permute => rfl

theorem exec_err_of_ne_zero {i : Instr} {s t : State} (h : exec i s = .next t) (hi : i ≠ .clrErr)
    (he : s.err ≠ 0x00) : t.err = s.err := by
  obtain ⟨c, -, rfl⟩ | ⟨-, -, rfl⟩ := exec_next h
  · exact if_neg he
  · exact effect_err s hi

/-- Settles O51: the step's frame is CLRERR, another command, or an illegal word, and no error replaces a code. -/
theorem errIsSticky : Obligations.ErrIsSticky := by
  refine fun s t hl h => ⟨fun rest hd => ?_, fun hnc he => ?_⟩
  · rw [step_of_instr hl hd, exec_clrErr] at h
    cases h
    rfl
  · obtain ⟨-, -, rfl⟩ | ⟨hr, -⟩ | ⟨-, r, rest, -, rfl⟩ | ⟨-, i, rest, hd, hx⟩ := step_cases h
    · rfl
    · simp [hl] at hr
    · exact if_neg he
    · exact (exec_err_of_ne_zero hx (fun hi => hnc rest (hi ▸ hd)) he :)

/-! The fault record (60_exceptions.md R208). -/

theorem stickyFault_of_ne_none {f : Option ErrorCode} (h : f ≠ none) (c : ErrorCode) : stickyFault f c = f := by
  cases f with
  | none => exact absurd rfl h
  | some first => rfl

theorem exec_fault_of_ne_none {i : Instr} {s t : State} (h : exec i s = .next t) (hf : s.faultRecord ≠ none) :
    t.faultRecord = s.faultRecord := by
  obtain ⟨c, -, rfl⟩ | ⟨-, u, data, rfl, -, -, -, -, -, hfault⟩ := exec_cases h
  · exact stickyFault_of_ne_none hf c
  · exact hfault

theorem step_fault_of_ne_none {s t : State} (h : step s = .next t) (hf : s.faultRecord ≠ none) :
    t.faultRecord = s.faultRecord := by
  obtain ⟨-, -, rfl⟩ | ⟨-, -, -, rfl⟩ | ⟨-, r, rest, -, rfl⟩ | ⟨-, i, rest, -, hx⟩ := step_cases h
  · rfl
  · rfl
  · exact stickyFault_of_ne_none hf _
  · exact (exec_fault_of_ne_none hx hf :)

/-- The first error of a run is recorded as the code it emits. -/
theorem State.raise_records {s : State} {c : ErrorCode} {code : Byte} (hf : s.faultRecord = none)
    (h : (s.raise c).resp = s.resp ++ [code]) : (s.raise c).faultRecord.map codeByte = some code := by
  have hcode : codeByte c = code := by simpa using h
  rw [State.raise_faultRecord, hf, ← hcode]
  rfl

theorem exec_records {i : Instr} {s t : State} {code : Byte} (h : exec i s = .next t) (hf : s.faultRecord = none)
    (hr : t.resp = s.resp ++ [code]) (hc : code ≠ 0x00) : t.faultRecord.map codeByte = some code := by
  obtain ⟨c, -, rfl⟩ | ⟨-, u, data, rfl, -, hresp, -⟩ := exec_cases h
  · exact State.raise_records hf hr
  · rw [State.succeed_resp, hresp] at hr
    have hhead := List.append_cancel_left hr
    exact absurd (List.cons.inj hhead).1.symm hc

/-- Settles O52: an idle step and a reset emit nothing, and an error's code is what the record takes if it is empty.
-/
theorem faultRecordIsKept : Obligations.FaultRecordIsKept := by
  refine fun s t h => ⟨step_fault_of_ne_none h, fun code hf hr hc => ?_⟩
  obtain ⟨-, -, rfl⟩ | ⟨-, -, -, rfl⟩ | ⟨-, r, rest, -, rfl⟩ | ⟨-, i, rest, -, hx⟩ := step_cases h
  · simp at hr
  · simp at hr
  · exact State.raise_records (s := { s with cmd := rest }) hf hr
  · exact exec_records hx hf hr hc

end Sys2Proof.Machine
end

section
/-! Several engines (10_state.md R39; 20_memory.md R58). -/

namespace Sys2Proof.Machine

/-- A turn of engine e' is a turn of engine e where they are the same, and nothing to e where they are not. -/
theorem Platform.getElem?_turn (p : Platform) (e' e : Nat) :
    (p.turn e')[e]? = if e' = e then p[e]?.map State.turn else p[e]? := by
  rw [Platform.turn, List.getElem?_modify]
  split_ifs <;> simp

/-- Settles O57, by induction on the schedule. -/
theorem enginesAreIsolated : Obligations.EnginesAreIsolated := by
  intro p schedule e
  induction schedule generalizing p with
  | nil =>
    change p[e]? = p[e]?.map id
    rw [Option.map_id_fun, id]
  | cons e' schedule ih =>
    change (Platform.run (p.turn e') schedule)[e]? = _
    rw [ih, Platform.getElem?_turn]
    by_cases h : e' = e
    · rw [if_pos h, h, List.count_cons_self, Option.map_map]
      rfl
    · rw [if_neg h, List.count_cons_of_ne h]

end Sys2Proof.Machine
end

section
/-! UPDATE's chunks (30_encoding.md R83). -/

namespace Sys2Proof.Machine

/-- With fuel for its last chunk, too, `chunksFrom` loses no byte. -/
theorem flatten_chunksFrom {fuel : Nat} {bs : List Byte} (h : bs.length / 65535 < fuel) :
    (chunksFrom fuel bs).flatten = bs := by
  induction fuel generalizing bs with
  | zero => exact absurd h (Nat.not_lt_zero _)
  | succ fuel ih =>
    rw [chunksFrom]
    split_ifs with hlen
    · exact List.flatten_singleton
    · rw [List.flatten_cons, ih (by rw [List.length_drop]; omega), List.take_append_drop]

theorem chunksFrom_succ_ne_nil (fuel : Nat) (bs : List Byte) : chunksFrom (fuel + 1) bs ≠ [] := by
  rw [chunksFrom]
  split_ifs <;> exact List.cons_ne_nil _ _

theorem length_le_of_mem_chunksFrom {fuel : Nat} {bs c : List Byte} (h : c ∈ chunksFrom fuel bs) :
    c.length ≤ 65535 := by
  induction fuel generalizing bs with
  | zero => cases h
  | succ fuel ih =>
    rw [chunksFrom] at h
    split_ifs at h with hlen
    · rwa [List.mem_singleton.mp h]
    · obtain rfl | h := List.mem_cons.mp h
      · exact List.length_take_le _ _
      · exact ih h

theorem flatten_updateChunks (bs : List Byte) : (updateChunks bs).flatten = bs :=
  flatten_chunksFrom (Nat.lt_succ_self _)

/-- Settles O8: the chunks' three properties, by induction on their number, and UPDATE's definition. -/
theorem updateChunksTheLiteral : Obligations.UpdateChunksTheLiteral := fun bs =>
  ⟨flatten_updateChunks bs, chunksFrom_succ_ne_nil _ bs, fun _ => length_le_of_mem_chunksFrom, rfl⟩

end Sys2Proof.Machine
end

section
/-! What a success keeps, for every command. -/

namespace Sys2Proof.Machine

/-- An effect leaves the channels, the reset line, the frame index and the fault record to `State.succeed`. -/
theorem effect_carried (i : Instr) (s : State) : Carried s (effect i s) := by
  cases i with
  | absorb | squeeze | final | hash => simp [Carried, effect, State.hashPadded]
  | status | clrErr | init | initK | pad | xorIn | extract | permute => exact ⟨rfl, rfl, rfl, rfl, rfl⟩

theorem success_answers (i : Instr) (s : State) :
    Answers s ((effect i s).succeed (output i s)) (0x00 :: output i s) := by
  obtain ⟨hresp, hk, -⟩ := effect_carried i s
  exact ⟨by rw [State.succeed_resp, hresp], by rw [State.succeed_k, hk]⟩

theorem success_inputs (i : Instr) (s : State) : SameInputs s ((effect i s).succeed (output i s)) := by
  obtain ⟨-, -, hcmd, hline, -⟩ := effect_carried i s
  exact ⟨hcmd, hline⟩

theorem success_errors {i : Instr} (s : State) (h : i ≠ .clrErr) :
    SameErrors s ((effect i s).succeed (output i s)) := by
  obtain ⟨-, -, -, -, hfault⟩ := effect_carried i s
  exact ⟨effect_err s h, hfault⟩

end Sys2Proof.Machine
end

section
/-! The adapter, the permutation engine and a new instance (41_adapter.md; 40_permutation.md R110;
43_hash_instance.md R160, R163; 70_reset_and_hazards.md R233). -/

namespace Sys2Proof.Machine

/-- Settles O36: XOR_IN writes S alone, and a read of XorIn's window gives the XOR. -/
theorem xorInWritesWindow : Obligations.XorInWritesWindow := fun s offset p h =>
  ⟨_, exec_xorIn_within s h, fun a => Memory.read_xorBytes p s.mem offset.toNat a, SameInstance.refl s, ⟨rfl, rfl⟩,
    ⟨rfl, rfl⟩, State.succeed_answers _ []⟩

/-- The same bytes XORed in twice cancel, byte by byte (20_memory.md R54). -/
theorem Memory.read_xorBytes_xorBytes (m : Memory) (a b : Nat) (p : List Byte) :
    ((m.xorBytes a p).xorBytes a p).read b = m.read b := by
  rw [Memory.read_xorBytes, Memory.read_xorBytes]
  split_ifs
  · rw [BitVec.xor_assoc, BitVec.xor_self, BitVec.xor_zero]
  · rfl

/-- Settles O37: every byte reads as at first, and canonical state spaces that read alike are the same data. -/
theorem xorInTwiceCancels : Obligations.XorInTwiceCancels := by
  intro s a b offset p h ha hb
  rw [exec_xorIn_within s h] at ha
  cases ha
  rw [exec_xorIn_within _ h] at hb
  cases hb
  have hsame := fun x => Memory.read_xorBytes_xorBytes s.mem offset.toNat x p
  exact ⟨hsame, fun hwf => Memory.ext_wf (Memory.wf_xorBytes (Memory.wf_xorBytes hwf h) h) hwf hsame⟩

/-- Settles O39: within the bound EXTRACT is a success whose data are MemRead's bytes. -/
theorem extractReadsWindow : Obligations.ExtractReadsWindow := fun s _ _ h => exec_extract_within s h

/-- Settles O41: S becomes the state space of KeccakF's 200 bytes, and PERMUTE writes nothing else. -/
theorem permuteAppliesKeccakF : Obligations.PermuteAppliesKeccakF := by
  refine fun s => ⟨_, exec_of_success rfl rfl, Memory.bytes_permute s.mem, fun a ha => ?_, SameInstance.refl s,
    ⟨rfl, rfl⟩, ⟨rfl, rfl⟩, success_answers .permute s⟩
  change s.mem.permute.read a = 0x00
  rw [Memory.read_permute]
  exact List.getD_eq_default _ _ (by rwa [length_keccakF])

/-- Settles O13: the nine registers and every byte of S are zero at reset. -/
theorem resetIsObservable : Obligations.ResetIsObservable := by
  refine ⟨⟨_, exec_status _, rfl⟩, _, exec_extract_within State.reset (by decide), ?_⟩
  exact congrArg (0x00 :: ·) Memory.bytes_nil

/-- Settles O17: `State.newInstance` gives every field, and the empty state space reads zero. -/
theorem initCreatesInstance : Obligations.InitCreatesInstance := fun _ suffix outlen s h1 h200 =>
  ⟨_, exec_init_accepted suffix outlen s ⟨h1, h200⟩, fun _ => rfl, rfl, rfl, rfl, rfl, rfl, rfl, rfl, ⟨rfl, rfl⟩,
    ⟨rfl, rfl⟩, State.succeed_answers _ []⟩

/-- Settles O19: KSHAKE_RATE is a legal rate, so INIT with the profile does what INITK does. -/
theorem initKBindsKshake320 : Obligations.InitKBindsKshake320 :=
  ⟨one_le_kshakeRate, kshakeRate_le, fun s =>
    ⟨(exec_init_accepted Config.kshakeSuffix 40 s kshakeRate_legal).symm, _, rfl, fun _ => rfl, rfl, rfl, rfl, rfl,
      rfl, rfl, rfl, ⟨rfl, rfl⟩, ⟨rfl, rfl⟩, State.succeed_answers _ []⟩⟩

end Sys2Proof.Machine
end

section
/-! The phase checks of the sponge's commands, and its stops (42_sponge.md R141, R144, R147; 43_hash_instance.md R165;
notes/assumptions/7.md). -/

namespace Sys2Proof.Machine

/-- A command whose check fails answers that error's whole effect. -/
theorem exec_failed {i : Instr} {s : State} {c : ErrorCode} (h : responseCode i s = codeByte c) :
    ∃ t, exec i s = .next t ∧ Failed s t (codeByte c) := ⟨_, exec_of_error h, s.raise_failed c⟩

/-- Settles O21: FINAL's two errors, with their whole effect. -/
theorem finalChecksPhase : Obligations.FinalChecksPhase := by
  refine fun s => ⟨fun hp => ?_, fun hp => ?_⟩
  · exact exec_failed (c := .invalidState) (if_pos hp)
  · refine exec_failed (c := .alreadyFinalized) ?_
    rcases hp with hp | hp <;> simp [responseCode, codeByte, hp]

/-- Settles O24: both commands pass their check in ABSORBING alone. -/
theorem absorbAndPadCheckPhase : Obligations.AbsorbAndPadCheckPhase := fun _ hp =>
  ⟨fun _ => exec_failed (c := .invalidState) (if_neg hp), exec_failed (c := .invalidState) (if_neg hp)⟩

/-- Settles O28: SQUEEZE's check fails in those two phases. -/
theorem squeezeChecksPhase : Obligations.SqueezeChecksPhase := fun _ _ hp =>
  exec_failed (c := .invalidState) (if_pos hp)

/-- The padding's two addresses, POS and RATE − 1 (R143). -/
theorem padInState_eq_false {rate pos : Byte} (h : 200 ≤ pos.toNat ∨ rate.toNat = 0 ∨ 200 < rate.toNat) :
    padInState rate pos = false := by
  rw [padInState, Bool.and_assoc, Bool.and_eq_false_iff, Bool.and_eq_false_iff]
  simp only [decide_eq_false_iff_not]
  omega

/-- Settles O30: the first access is POS of a non-empty ABSORB, one of the padding's two, or SQZ_POS of a window not
used up. -/
theorem spongeStopsOutsideState : Obligations.SpongeStopsOutsideState := by
  refine fun s => ⟨fun v p hp hpos => ?_, fun hp hreg => ⟨?_, ?_⟩, fun n hn hp hne hq => ?_⟩
  · refine exec_of_outside (responseCode_absorb_eq_zero_iff.mpr hp) ?_
    rw [accessesInState, List.length_cons, absorbInState, decide_eq_false (by omega), Bool.false_and]
  · exact exec_of_outside (responseCode_pad_eq_zero_iff.mpr hp) (padInState_eq_false hreg)
  · refine exec_of_outside (responseCode_final_eq_zero_iff.mpr hp) ?_
    rw [accessesInState, padInState_eq_false hreg, Bool.false_and]
  · refine exec_of_outside (responseCode_squeeze_eq_zero_iff.mpr hp) ?_
    obtain ⟨m, hm⟩ : ∃ m, n.toNat = m + 1 :=
      Nat.exists_eq_succ_of_ne_zero fun h0 => hn (BitVec.eq_of_toNat_eq h0)
    rw [accessesInState, hm, squeezeInState, squeezeFrom, if_neg hne, decide_eq_false (by omega), Bool.false_and]

end Sys2Proof.Machine
end

section
/-! ABSORB and PAD (42_sponge.md R140 to R144). -/

namespace Sys2Proof.Machine

/-- Settles O22: AbsorbBytes of v and p is AbsorbBytes of p after one absorbed byte, and so are its accesses. -/
theorem absorbByteByByte : Obligations.AbsorbByteByByte := by
  refine fun s hp => ⟨exec_of_success (responseCode_absorb_eq_zero_iff.mpr hp) rfl, fun v p hpos => ?_⟩
  change exec (.absorb (v :: p)) s = exec (.absorb p) (s.absorbByte v)
  have hp' : (s.absorbByte v).phase = .absorbing := by rw [State.absorbByte_eq, hp]
  have hin : accessesInState (.absorb (v :: p)) s = accessesInState (.absorb p) (s.absorbByte v) := by
    rw [State.absorbByte_eq, accessesInState, List.length_cons, absorbInState, decide_eq_true hpos, Bool.true_and]
    rfl
  rw [exec_of_accepted (responseCode_absorb_eq_zero_iff.mpr hp),
    exec_of_accepted (responseCode_absorb_eq_zero_iff.mpr hp'), hin]
  rfl

/-- With legal registers, ABSORB completes in ABSORBING. -/
theorem exec_absorb_legal {s : State} (p : List Byte) (hp : s.phase = .absorbing) (hr : s.rate.toNat ≤ 200)
    (hlt : s.pos.toNat < s.rate.toNat) : exec (.absorb p) s = .next ((s.absorbBytes p).succeed []) :=
  exec_of_success (responseCode_absorb_eq_zero_iff.mpr hp) (absorbInState_of_legal hr _ hlt)

/-- Settles O23: AbsorbBytes writes S and POS only, and while no block fills it is XorIn at POS. -/
theorem absorbCompletes : Obligations.AbsorbCompletes := by
  intro s p hp hr hlt
  refine ⟨_, exec_absorb_legal p hp hr hlt, State.absorbBytes_pos_toNat p s hlt, by simp [hp], by simp, by simp,
    by simp [SameProfile], success_errors (i := .absorb p) s nofun, success_inputs (.absorb p) s,
    success_answers (.absorb p) s, fun hin a => ?_⟩
  rw [State.succeed_mem, State.absorbBytes_mem_within p s hin, Memory.read_xorBytes]

/-- Settles O26: PadAndSwitch gives every field. -/
theorem padSwitchesToSqueezing : Obligations.PadSwitchesToSqueezing := fun s hp hr hlt =>
  ⟨_, exec_of_success (responseCode_pad_eq_zero_iff.mpr hp) (padInState_of_legal hr hlt), s.bytes_padAndSwitch, rfl,
    rfl, rfl, rfl, ⟨rfl, rfl, rfl⟩, ⟨rfl, rfl⟩, ⟨rfl, rfl⟩, success_answers .pad s⟩

end Sys2Proof.Machine
end

section
/-! No command's effect reads the response channel or the frame index, so two commands' effects compose
(42_sponge.md R142). -/

namespace Sys2Proof.Machine

/-- The state with another response channel and frame index. -/
def State.withResponse (s : State) (resp : List Byte) (k : Nat) : State := { s with resp := resp, k := k }

/-- To emit a response is to replace the channel and the index. -/
theorem State.succeed_eq_withResponse (s : State) (data : List Byte) :
    s.succeed data = s.withResponse (s.resp ++ 0x00 :: data) (s.k + 1) := rfl

@[simp] theorem State.withResponse_withResponse (s : State) (r r' : List Byte) (k k' : Nat) :
    (s.withResponse r k).withResponse r' k' = s.withResponse r' k' := rfl

theorem State.withResponse_absorbBytes (s : State) (r : List Byte) (k : Nat) (p : List Byte) :
    (s.withResponse r k).absorbBytes p = (s.absorbBytes p).withResponse r k := by
  induction p generalizing s with
  | nil => rfl
  | cons v p ih =>
    have hv : (s.withResponse r k).absorbByte v = (s.absorbByte v).withResponse r k := by
      rw [State.absorbByte_eq, State.absorbByte_eq]
      rfl
    rw [State.absorbBytes_cons, hv, ih, State.absorbBytes_cons]

/-- What commutes with one squeezed byte commutes with the loop. -/
theorem State.squeezeLoop_comm {f : State → State}
    (hf : ∀ s : State, (f s).squeezeByte = (s.squeezeByte.1, f s.squeezeByte.2)) (n : Nat) (s : State) :
    State.squeezeLoop n (f s) = ((State.squeezeLoop n s).1, f (State.squeezeLoop n s).2) := by
  induction n generalizing s with
  | zero => rfl
  | succ n ih => rw [State.squeezeLoop_succ, hf, ih, State.squeezeLoop_succ]

theorem State.withResponse_squeezeLoop (s : State) (r : List Byte) (k n : Nat) :
    State.squeezeLoop n (s.withResponse r k) =
      ((State.squeezeLoop n s).1, (State.squeezeLoop n s).2.withResponse r k) :=
  State.squeezeLoop_comm (f := (State.withResponse · r k))
    (fun s => by rw [State.squeezeByte_eq, State.squeezeByte_eq]; rfl) n s

theorem State.withResponse_squeezeBytes (s : State) (r : List Byte) (k n : Nat) :
    (s.withResponse r k).squeezeBytes n = ((s.squeezeBytes n).1, (s.squeezeBytes n).2.withResponse r k) := by
  rw [State.squeezeBytes, State.withResponse_squeezeLoop]
  rfl

theorem State.withResponse_padAndSwitch (s : State) (r : List Byte) (k : Nat) :
    (s.withResponse r k).padAndSwitch = s.padAndSwitch.withResponse r k := rfl

theorem State.withResponse_hashPadded (s : State) (r : List Byte) (k : Nat) (p : List Byte) :
    (s.withResponse r k).hashPadded p = (s.hashPadded p).withResponse r k :=
  congrArg State.padAndSwitch (s.initK.withResponse_absorbBytes r k p)

/-- Both of a success: the effect is the same, with the response channel and the index as they were, and so is the
output. -/
theorem effect_output_withResponse (i : Instr) (s : State) (r : List Byte) (k : Nat) :
    effect i (s.withResponse r k) = (effect i s).withResponse r k ∧ output i (s.withResponse r k) = output i s := by
  cases i with
  | status | clrErr | init | initK | pad | xorIn | extract | permute => exact ⟨rfl, rfl⟩
  | absorb p => exact ⟨s.withResponse_absorbBytes r k p, rfl⟩
  | squeeze n => rw [effect, output, State.withResponse_squeezeBytes]; exact ⟨rfl, rfl⟩
  | final => rw [effect, output, State.withResponse_padAndSwitch, State.withResponse_squeezeBytes]; exact ⟨rfl, rfl⟩
  | hash p => rw [effect, output, State.withResponse_hashPadded, State.withResponse_squeezeBytes]; exact ⟨rfl, rfl⟩

/-- A success is its effect with its response added. -/
theorem success_eq_withResponse (i : Instr) (s : State) : (effect i s).succeed (output i s) =
    (effect i s).withResponse (s.resp ++ 0x00 :: output i s) (s.k + 1) := by
  obtain ⟨hresp, hk, -⟩ := effect_carried i s
  rw [State.succeed_eq_withResponse, hresp, hk]

/-- Two successes in a row: the two effects, and both responses. -/
theorem success_of_success (i j : Instr) (s : State) :
    (effect j ((effect i s).succeed (output i s))).succeed (output j ((effect i s).succeed (output i s))) =
      (effect j (effect i s)).withResponse
        (s.resp ++ 0x00 :: output i s ++ 0x00 :: output j (effect i s)) (s.k + 1 + 1) := by
  obtain ⟨heff, hout⟩ :=
    effect_output_withResponse j (effect i s) (s.resp ++ 0x00 :: output i s) (s.k + 1)
  rw [success_eq_withResponse j, success_eq_withResponse i, heff, hout]
  rfl

/-- Settles O25: AbsorbBytes is a left fold, and so are its accesses; the first response is not read by the second
ABSORB. -/
theorem absorbIsIncremental : Obligations.AbsorbIsIncremental := by
  intro s a b b1 b2 hp h1 h2
  obtain ⟨hin1, rfl⟩ := exec_next_of_accepted (responseCode_absorb_eq_zero_iff.mpr hp) h1
  have hpa : ((effect (.absorb b1) s).succeed (output (.absorb b1) s)).phase = .absorbing := by simp [effect, hp]
  obtain ⟨hin2, rfl⟩ := exec_next_of_accepted (responseCode_absorb_eq_zero_iff.mpr hpa) h2
  have hin : accessesInState (.absorb (b1 ++ b2)) s = true :=
    (absorbInState_append s b1 b2).trans (Bool.and_eq_true_iff.mpr ⟨hin1, hin2⟩)
  have heff : effect (.absorb (b1 ++ b2)) s = effect (.absorb b2) (effect (.absorb b1) s) :=
    s.absorbBytes_append b1 b2
  rw [exec_of_success (responseCode_absorb_eq_zero_iff.mpr hp) hin, success_eq_withResponse, heff,
    success_of_success (.absorb b1)]
  rfl

end Sys2Proof.Machine
end

section
/-! SQUEEZE and FINAL (42_sponge.md R146, R147; 43_hash_instance.md R165). -/

namespace Sys2Proof.Machine

/-! SqueezeBytes, against the windows of its stream. -/

/-- The stream of a fresh window. -/
theorem State.squeezeLoop_fresh (n : Nat) {s : State} (h1 : 1 ≤ s.rate.toNat) (hr : s.rate.toNat ≤ 200)
    (hq : s.sqzPos = 0) :
    (State.squeezeLoop n s).1 = (squeezeWindows s.rate.toNat n s.mem.bytes).take n ∧
    (State.squeezeLoop n s).2.mem.bytes = keccakF^[squeezePerms s.rate.toNat n] s.mem.bytes ∧
    (State.squeezeLoop n s).2.sqzPos.toNat = if n = 0 then 0 else (n - 1) % s.rate.toNat + 1 := by
  obtain ⟨hout, hmem, hpos⟩ := State.squeezeLoop_stream n s h1 hr (by rw [hq]; exact Nat.zero_le _)
  have h0 : s.sqzPos.toNat = 0 := by rw [hq]; rfl
  rw [h0] at hout hmem hpos
  rw [List.drop_zero, ← squeezeWindows, take_squeezeWindows_succ h1 hr n (Memory.length_bytes _)] at hout
  rw [Nat.zero_add] at hmem hpos
  refine ⟨hout, ?_, hpos⟩
  rw [hmem, squeezePerms]
  split_ifs with hn
  · rw [hn, Nat.zero_sub, Nat.zero_div]
  · rfl

/-- Settles O27: `State.squeezeLoop_stream` gives the bytes, S and SQZ_POS, and no other field is the loop's. -/
theorem squeezeEmitsStream : Obligations.SqueezeEmitsStream := by
  intro s n hp h1 hr hq
  obtain ⟨hout, hmem, hpos⟩ := State.squeezeLoop_stream n.toNat s h1 hr hq
  have hzero : n.toNat = 0 ↔ n = 0 := BitVec.toNat_inj (y := 0)
  refine ⟨_, exec_of_success (responseCode_squeeze_eq_zero_iff.mpr hp) (squeezeInState_of_legal h1 hr _ hq), ?_,
    hmem, ?_, ?_, s.squeezeBytes_phase n.toNat, by simp [effect], by simp [SameProfile, effect],
    success_errors s nofun, success_inputs (.squeeze n) s⟩
  · rw [← hout]
    exact success_answers (.squeeze n) s
  · rwa [← ite_congr (propext hzero) (fun _ => rfl) fun _ => rfl]
  · simp [effect, saturatingAdd_toNat]

/-- With legal registers, FINAL completes in ABSORBING. -/
theorem exec_final_legal {s : State} (hp : s.phase = .absorbing) (hr : s.rate.toNat ≤ 200)
    (hlt : s.pos.toNat < s.rate.toNat) : exec .final s = .next ((effect .final s).succeed (output .final s)) :=
  exec_of_success (responseCode_final_eq_zero_iff.mpr hp) (Bool.and_eq_true_iff.mpr ⟨padInState_of_legal hr hlt,
    squeezeInState_of_legal (Nat.zero_lt_of_lt hlt) hr _ (Nat.zero_le _)⟩)

/-- Settles O20: the padded state is a fresh window, from which OUTLEN bytes are squeezed. -/
theorem finalEmitsDigest : Obligations.FinalEmitsDigest := by
  intro s hp hr hlt
  have h1 : 1 ≤ s.rate.toNat := Nat.zero_lt_of_lt hlt
  obtain ⟨hout, hmem, hpos⟩ := State.squeezeLoop_fresh s.outlen.toNat (s := s.padAndSwitch) h1 hr rfl
  have hzero : s.outlen.toNat = 0 ↔ s.outlen = 0 := BitVec.toNat_inj (y := 0)
  refine ⟨_, s.padAndSwitch.mem.bytes, exec_final_legal hp hr hlt, s.bytes_padAndSwitch, ?_, hmem,
    State.padAndSwitch_squeezeBytes_phase le_rfl, by simp [effect], ?_, ?_, by simp [SameProfile, effect],
    success_errors s nofun, success_inputs .final s⟩
  · rw [← show output .final s = (squeezeWindows s.rate.toNat _ s.padAndSwitch.mem.bytes).take _ from hout]
    exact success_answers .final s
  · have hlen := s.outlen.isLt
    have hcnt : ((effect .final s).succeed (output .final s)).outCnt = saturatingAdd 0 s.outlen.toNat := by
      simp [effect]
    rw [hcnt, saturatingAdd_toNat, show (0 : BitVec 16).toNat = 0 from rfl]
    omega
  · rwa [← ite_congr (propext hzero) (fun _ => rfl) fun _ => rfl]

/-! SqueezeBytes of n and then m bytes is SqueezeBytes of n + m. -/

theorem State.countSqueezed_squeezeLoop (n m : Nat) (s : State) : State.squeezeLoop m (s.countSqueezed n) =
    ((State.squeezeLoop m s).1, (State.squeezeLoop m s).2.countSqueezed n) :=
  State.squeezeLoop_comm (f := (State.countSqueezed · n))
    (fun s => by rw [State.squeezeByte_eq, State.squeezeByte_eq]; rfl) m s

/-- OUT_CNT saturates at once or in two steps alike (10_state.md R30). -/
theorem saturatingAdd_add (c : BitVec 16) (n m : Nat) :
    saturatingAdd (saturatingAdd c n) m = saturatingAdd c (n + m) := by
  apply BitVec.eq_of_toNat_eq
  simp only [saturatingAdd_toNat]
  omega

/-- PHASE is DONE once OUT_CNT has reached OUTLEN, and OUT_CNT does not fall. -/
theorem phaseAfterSqueeze_phaseAfterSqueeze (p : Phase) {c c' : BitVec 16} (outlen : Byte)
    (h : c.toNat ≤ c'.toNat) :
    phaseAfterSqueeze (phaseAfterSqueeze p c outlen) c' outlen = phaseAfterSqueeze p c' outlen := by
  rw [phaseAfterSqueeze, phaseAfterSqueeze, phaseAfterSqueeze]
  split_ifs with h1 h2
  · rfl
  · exact absurd (h2.trans h) h1
  · rfl

theorem State.countSqueezed_add (s : State) (n m : Nat) :
    (s.countSqueezed n).countSqueezed m = s.countSqueezed (n + m) := by
  have hle : (saturatingAdd s.outCnt n).toNat ≤ (saturatingAdd s.outCnt (n + m)).toNat := by
    simp only [saturatingAdd_toNat]
    omega
  simp only [State.countSqueezed, saturatingAdd_add, phaseAfterSqueeze_phaseAfterSqueeze _ _ hle]

theorem State.squeezeBytes_add (s : State) (n m : Nat) : s.squeezeBytes (n + m) =
    ((s.squeezeBytes n).1 ++ ((s.squeezeBytes n).2.squeezeBytes m).1, ((s.squeezeBytes n).2.squeezeBytes m).2) := by
  simp only [State.squeezeBytes, State.countSqueezed_squeezeLoop, State.squeezeLoop_add, State.countSqueezed_add]

/-- The addresses of two SQUEEZEs are those of one. -/
theorem squeezeInState_add (s : State) (n m : Nat) : squeezeInState s.rate s.sqzPos (n + m) =
    (squeezeInState s.rate s.sqzPos n && squeezeInState s.rate (State.squeezeLoop n s).2.sqzPos m) := by
  induction n generalizing s with
  | zero => rw [Nat.zero_add, State.squeezeLoop_zero, squeezeInState, Bool.true_and]
  | succ n ih =>
    have hrate : s.squeezeByte.2.rate = s.rate := by rw [State.squeezeByte_eq]
    have hpos : s.squeezeByte.2.sqzPos = squeezeFrom s.rate s.sqzPos + 1 := by rw [State.squeezeByte_eq]
    have := ih s.squeezeByte.2
    rw [hrate, hpos] at this
    rw [Nat.add_right_comm, squeezeInState, this, squeezeInState, State.squeezeLoop_succ, Bool.and_assoc]

/-- Settles O29: the loop, its accesses and the counter add up, and the first response is not read by the second
SQUEEZE. -/
theorem squeezeIsIncremental : Obligations.SqueezeIsIncremental := by
  intro s a b n m hnm hp h1 h2
  obtain ⟨hin1, rfl⟩ := exec_next_of_accepted (responseCode_squeeze_eq_zero_iff.mpr hp) h1
  have hpa : ((effect (.squeeze n) s).succeed (output (.squeeze n) s)).phase = .squeezing ∨
      ((effect (.squeeze n) s).succeed (output (.squeeze n) s)).phase = .done := by
    rw [State.succeed_phase, effect, State.squeezeBytes_phase]
    split_ifs
    · exact .inr rfl
    · exact hp
  obtain ⟨hin2, rfl⟩ := exec_next_of_accepted (responseCode_squeeze_eq_zero_iff.mpr hpa) h2
  have hsum : (n + m).toNat = n.toNat + m.toNat := by
    rw [BitVec.toNat_add]
    omega
  have hin : accessesInState (.squeeze (n + m)) s = true := by
    rw [accessesInState, hsum, squeezeInState_add, Bool.and_eq_true]
    exact ⟨hin1, by simpa [accessesInState, effect] using hin2⟩
  have hadd := s.squeezeBytes_add n.toNat m.toNat
  rw [← hsum] at hadd
  have heff : effect (.squeeze (n + m)) s = effect (.squeeze m) (effect (.squeeze n) s) := by
    rw [effect, hadd]
    rfl
  have hout : output (.squeeze (n + m)) s =
      output (.squeeze n) s ++ output (.squeeze m) (effect (.squeeze n) s) := by
    rw [output, hadd]
    rfl
  obtain ⟨hresp, -⟩ := success_answers (.squeeze n) s
  refine ⟨output (.squeeze n) s, output (.squeeze m) (effect (.squeeze n) s), State.squeezeBytes_length _ _,
    State.squeezeBytes_length _ _, hresp, ?_, ?_⟩
  · rw [success_of_success, hresp]
    rfl
  · rw [exec_of_success (responseCode_squeeze_eq_zero_iff.mpr hp) hin, success_eq_withResponse, heff, hout,
      success_of_success]
    rfl

end Sys2Proof.Machine
end

section
/-! The commands against the sponge function (42_sponge.md R149; 44_kshake320.md R180 to R182, R188). -/

namespace Sys2Proof.Machine

/-! The sponge function's length. -/

theorem length_sponge {r : Nat} (h1 : 1 ≤ r) (hr : r ≤ 200) (suffix : Byte) (m : List Byte) (L : Nat) :
    (sponge r suffix m L).length = L := by
  have hpad : (spongePadded r suffix m).length = 200 := length_keccakF _
  rw [sponge, List.length_take, length_squeezeWindows hr L hpad, Nat.min_eq_left (Nat.le_mul_of_pos_right L h1)]

/-- Settles O32: L windows hold L bytes at least, and KSHAKE_RATE is a legal rate. -/
theorem spongeOutputLength : Obligations.SpongeOutputLength :=
  ⟨fun _ suffix m L h1 hr => length_sponge h1 hr suffix m L,
    fun m => length_sponge kshakeRate_legal.1 kshakeRate_legal.2 Config.kshakeSuffix m 40⟩

/-! A fresh instance: S all zero, POS 0, and a legal rate. -/

section
variable {s : State} (hpos : s.pos = 0) (h1 : 1 ≤ s.rate.toNat) (m : List Byte)
include hpos h1

theorem State.pos_absorbBytes_fresh : (s.absorbBytes m).pos.toNat = m.length % s.rate.toNat := by
  have h0 : s.pos.toNat = 0 := by rw [hpos]; rfl
  rw [State.absorbBytes_pos_toNat m s (by omega), h0, Nat.zero_add]

variable (hmem : s.mem = [])
include hmem

/-- AbsorbBytes of a message leaves R149's T before the padding. -/
theorem State.bytes_absorbBytes_fresh : (s.absorbBytes m).mem.bytes = spongeAbsorbed s.rate.toNat m := by
  rw [State.bytes_absorbBytes s m hpos h1, hmem, Memory.bytes_nil, spongeAbsorbed]

theorem State.bytes_padAndSwitch_fresh :
    (s.absorbBytes m).padAndSwitch.mem.bytes = spongePadded s.rate.toNat s.suffix m := by
  rw [State.bytes_padAndSwitch, State.bytes_absorbBytes_fresh hpos h1 m hmem, State.pos_absorbBytes_fresh hpos h1,
    State.absorbBytes_suffix, State.absorbBytes_rate, spongePadded]

/-- What SqueezeBytes then emits is the sponge function of the message. -/
theorem State.squeezeBytes_fresh (hr : s.rate.toNat ≤ 200) (n : Nat) :
    ((s.absorbBytes m).padAndSwitch.squeezeBytes n).1 = sponge s.rate.toNat s.suffix m n := by
  obtain ⟨hout, -⟩ := State.squeezeLoop_fresh n (s := (s.absorbBytes m).padAndSwitch) (by simpa) (by simpa) rfl
  rw [State.squeezeBytes_fst, hout, State.bytes_padAndSwitch_fresh hpos h1 m hmem, sponge]
  simp

end

/-! HASH. -/

theorem output_hash (s : State) (p : List Byte) : output (.hash p) s = kshake320 p :=
  State.squeezeBytes_fresh (s := s.initK) rfl one_le_kshakeRate p rfl kshakeRate_legal.2 40

theorem exec_hash (s : State) (p : List Byte) :
    exec (.hash p) s = .next ((effect (.hash p) s).succeed (output (.hash p) s)) := exec_of_success rfl rfl

theorem answers_hash (s : State) (p : List Byte) :
    Answers s ((effect (.hash p) s).succeed (output (.hash p) s)) (0x00 :: kshake320 p) := by
  rw [← output_hash s p]
  exact success_answers (.hash p) s

theorem effect_hash (s : State) (p : List Byte) :
    effect (.hash p) s = (State.squeezeLoop 40 (s.hashPadded p)).2.countSqueezed 40 := by
  rw [effect, State.squeezeBytes_snd]

theorem effect_hash_phase (s : State) (p : List Byte) : (effect (.hash p) s).phase = .done :=
  State.hashPadded_squeezeBytes_phase s p

/-- Settles O33: HASH is INITK's instance, the payload absorbed and padded, and forty bytes of a fresh window. -/
theorem hashEmitsKshake320 : Obligations.HashEmitsKshake320 := by
  intro s p
  have hpad : (s.hashPadded p).mem.bytes = spongePadded Config.kshakeRate.toNat Config.kshakeSuffix p :=
    State.bytes_padAndSwitch_fresh (s := s.initK) rfl one_le_kshakeRate p rfl
  have hrate : (s.hashPadded p).rate = Config.kshakeRate := by simp [State.hashPadded]
  obtain ⟨-, hmem, hpos⟩ := State.squeezeLoop_fresh 40 (s := s.hashPadded p)
    (by rw [hrate]; exact kshakeRate_legal.1) (by rw [hrate]; exact kshakeRate_legal.2) rfl
  rw [hpad, hrate, squeezePerms, if_neg (by decide)] at hmem
  rw [hrate, if_neg (by decide)] at hpos
  refine ⟨_, exec_hash s p, answers_hash s p, ?_, ?_, ?_, ?_, ?_, ?_, ?_,
    (State.succeed_phase _ _).trans (effect_hash_phase s p),
    success_errors s nofun, success_inputs (.hash p) s⟩
  · rw [State.succeed_mem, effect_hash, State.countSqueezed_mem]
    exact hmem
  · simp [effect_hash, hrate]
  · simp [effect_hash, State.hashPadded]
  · simp [effect_hash, State.hashPadded]
  · simp [effect_hash, State.hashPadded]
  · rw [State.succeed_sqzPos, effect_hash, State.countSqueezed_sqzPos]
    exact hpos
  · simp [effect_hash, State.hashPadded, saturatingAdd]

/-- Settles O60: what HASH emits is KSHAKE320 of the message in every state, so the engine's test is the equation. -/
theorem conformanceIsAHypothesis : Obligations.ConformanceIsAHypothesis := by
  refine fun m => ⟨fun h => ?_, fun h s => ?_⟩
  · obtain ⟨t, ht, hresp⟩ := h State.reset
    rw [exec_hash, Host.Outcome.next.injEq] at ht
    subst ht
    obtain ⟨hans, -⟩ := answers_hash State.reset m
    exact (List.cons.inj (hans.symm.trans hresp)).2
  · obtain ⟨hans, -⟩ := answers_hash s m
    exact ⟨_, exec_hash s m, hans.trans (congrArg (s.resp ++ 0x00 :: ·) h)⟩

/-! INIT or INITK, the message in chunks, FINAL (20_memory.md R55). -/

theorem execAll_cons {i : Instr} {s t : State} (h : exec i s = .next t) (is : List Instr) :
    execAll (i :: is) s = execAll is t := by
  rw [execAll, h]

/-- ABSORBs of the chunks are one AbsorbBytes of the message, and answer a 00 each. -/
theorem execAll_absorbs (chunks : List (List Byte)) (is : List Instr) {s : State} (hp : s.phase = .absorbing)
    (hr : s.rate.toNat ≤ 200) (hlt : s.pos.toNat < s.rate.toNat) :
    execAll (chunks.map Instr.absorb ++ is) s = execAll is ((s.absorbBytes chunks.flatten).withResponse
      (s.resp ++ List.replicate chunks.length 0x00) (s.k + chunks.length)) := by
  induction chunks generalizing s with
  | nil =>
    change execAll is s = execAll is (s.withResponse (s.resp ++ []) s.k)
    rw [List.append_nil]
    rfl
  | cons c chunks ih =>
    have hlt' := State.absorbBytes_pos_lt c s hlt
    rw [List.map_cons, List.cons_append, execAll_cons (exec_absorb_legal c hp hr hlt),
      ih (by simpa) (by simpa) (by simpa using hlt'), State.succeed_eq_withResponse, State.withResponse_absorbBytes,
      State.withResponse_withResponse, List.flatten_cons, State.absorbBytes_append, List.length_cons]
    congr 2
    · change (s.absorbBytes c).resp ++ [0x00] ++ List.replicate chunks.length 0x00 = _
      rw [State.absorbBytes_resp, List.append_assoc, List.singleton_append, ← List.replicate_succ]
    · change (s.absorbBytes c).k + 1 + chunks.length = _
      rw [State.absorbBytes_k]
      omega

/-- A fresh instance, the message in any chunks, and FINAL: the effect of FINAL on the instance that has absorbed the
whole message, and the sponge function of the message after a 00 for each command. -/
theorem execAll_absorbs_final {s : State} (hp : s.phase = .absorbing) (hpos : s.pos = 0) (hmem : s.mem = [])
    (h1 : 1 ≤ s.rate.toNat) (hr : s.rate.toNat ≤ 200) (chunks : List (List Byte)) :
    execAll (chunks.map Instr.absorb ++ [.final]) s = .next
      ((effect .final (s.absorbBytes chunks.flatten)).withResponse
        (s.resp ++ List.replicate chunks.length 0x00 ++
          0x00 :: sponge s.rate.toNat s.suffix chunks.flatten s.outlen.toNat) (s.k + chunks.length + 1)) := by
  have hlt : s.pos.toNat < s.rate.toNat := by rw [hpos]; exact h1
  have hout : output .final (s.absorbBytes chunks.flatten) =
      sponge s.rate.toNat s.suffix chunks.flatten s.outlen.toNat := by
    rw [output, State.absorbBytes_outlen, State.squeezeBytes_fresh hpos h1 _ hmem hr]
  obtain ⟨heff, hout'⟩ := effect_output_withResponse .final (s.absorbBytes chunks.flatten)
    (s.resp ++ List.replicate chunks.length 0x00) (s.k + chunks.length)
  have hfinal := exec_final_legal (s := (s.absorbBytes chunks.flatten).withResponse
    (s.resp ++ List.replicate chunks.length 0x00) (s.k + chunks.length)) (by simpa [State.withResponse])
    (by simpa [State.withResponse]) (by simpa [State.withResponse] using State.absorbBytes_pos_lt _ s hlt)
  rw [execAll_absorbs chunks _ hp hr hlt, execAll_cons hfinal, success_eq_withResponse, heff, hout', hout]
  rfl

/-- The same after the command that makes the instance, INIT or INITK. -/
theorem execAll_instance {i : Instr} {s : State} {rate suffix outlen : Byte}
    (hi : exec i s = .next ((s.newInstance rate suffix outlen).succeed [])) (h1 : 1 ≤ rate.toNat)
    (hr : rate.toNat ≤ 200) (chunks : List (List Byte)) :
    ∃ k, execAll (i :: (chunks.map Instr.absorb ++ [.final])) s = .next
      ((effect .final ((s.newInstance rate suffix outlen).absorbBytes chunks.flatten)).withResponse
        (s.resp ++ 0x00 :: (List.replicate chunks.length 0x00 ++
          0x00 :: sponge rate.toNat suffix chunks.flatten outlen.toNat)) k) := by
  obtain ⟨heff, -⟩ := effect_output_withResponse .final
    ((s.newInstance rate suffix outlen).absorbBytes chunks.flatten) (s.resp ++ [0x00]) (s.k + 1)
  refine ⟨s.k + 1 + chunks.length + 1, ?_⟩
  rw [execAll_cons hi, execAll_absorbs_final rfl rfl rfl h1 hr, State.succeed_eq_withResponse,
    State.withResponse_absorbBytes]
  change Host.Outcome.next (State.withResponse (effect .final (State.withResponse _ (s.resp ++ [0x00]) (s.k + 1)))
    (s.resp ++ [0x00] ++ _ ++ _) _) = _
  rw [heff, State.withResponse_withResponse, List.append_assoc, List.append_assoc, List.singleton_append]
  rfl

theorem effect_final_phase {s : State} : (effect .final s).phase = .done :=
  State.padAndSwitch_squeezeBytes_phase le_rfl

/-- Settles O31: `execAll_instance` for INIT. -/
theorem instanceComputesSponge : Obligations.InstanceComputesSponge := by
  intro s rate suffix outlen chunks h1 hr
  obtain ⟨k, he⟩ := execAll_instance (exec_init_accepted suffix outlen s ⟨h1, hr⟩) h1 hr chunks
  exact ⟨_, he, rfl, effect_final_phase, by simp [SameErrors, State.withResponse, effect],
    by simp [SameInputs, State.withResponse, effect]⟩

/-- Settles O34: `execAll_instance` for INITK, whose OUTLEN is the forty bytes HASH squeezes. -/
theorem streamedHashIsHash : Obligations.StreamedHashIsHash := by
  intro s h chunks hh
  rw [exec_hash, success_eq_withResponse, Host.Outcome.next.injEq] at hh
  subst hh
  obtain ⟨k, he⟩ := execAll_instance (i := .initK) (s := s) rfl one_le_kshakeRate kshakeRate_legal.2 chunks
  have hsame : effect .final (s.initK.absorbBytes chunks.flatten) = effect (.hash chunks.flatten) s := by
    rw [effect, effect, State.absorbBytes_outlen]
    rfl
  refine ⟨_, he, rfl, ?_⟩
  rw [← hsame]
  rfl

/-- Settles O35: a HASH, or INITK with UPDATE's chunks and FINAL. -/
theorem powHashComputesKshake320 : Obligations.PowHashComputesKshake320 := by
  intro s bs
  by_cases hlen : bs.length ≤ 65535
  · obtain ⟨hresp, -⟩ := answers_hash s bs
    refine ⟨(effect (.hash bs) s).succeed (output (.hash bs) s), 0, ?_, ?_,
      (State.succeed_phase _ _).trans (effect_hash_phase s bs), fun _ => rfl⟩
    · rw [expandPseudo, if_pos hlen]
      exact execAll_cons (exec_hash s bs) []
    · rw [hresp, List.replicate_zero, List.append_nil]
  · obtain ⟨k, he⟩ := execAll_instance (i := .initK) (s := s) rfl one_le_kshakeRate kshakeRate_legal.2
      (updateChunks bs)
    have hexpand : expandPseudo (.powHash bs) = .initK :: ((updateChunks bs).map Instr.absorb ++ [.final]) :=
      if_neg hlen
    rw [flatten_updateChunks] at he
    rw [hexpand]
    refine ⟨_, (updateChunks bs).length + 1, he, ?_, effect_final_phase, fun h => absurd h hlen⟩
    rw [List.replicate_succ, List.append_assoc]
    rfl

end Sys2Proof.Machine
end

section
/-! The cost of a command in permutations (42_sponge.md R148; 70_reset_and_hazards.md R245). -/

namespace Sys2Proof.Machine

/-! The counted loops are the machine's loops. -/

/-- One absorbed byte, with one more call where it fills the window. -/
theorem absorbByteCounted_eq (s : State) (n : Nat) (v : Byte) : absorbByteCounted (s, n) v =
    (s.absorbByte v, n + if s.pos + 1 = s.rate then 1 else 0) := by
  rw [absorbByteCounted, State.absorbByte]
  split_ifs <;> rfl

theorem foldl_absorbByteCounted_fst (p : List Byte) (s : State) (n : Nat) :
    (p.foldl absorbByteCounted (s, n)).1 = s.absorbBytes p := by
  induction p generalizing s n with
  | nil => rfl
  | cons v p ih => rw [List.foldl_cons, absorbByteCounted_eq, ih, State.absorbBytes_cons]

/-- One squeezed byte, with a call where the window is used up. -/
theorem squeezeCounted_succ (n : Nat) (s : State) : squeezeCounted (n + 1) s =
    ((s.squeezeByte.1 :: (squeezeCounted n s.squeezeByte.2).1.1, (squeezeCounted n s.squeezeByte.2).1.2),
     (if s.sqzPos = s.rate then 1 else 0) + (squeezeCounted n s.squeezeByte.2).2) := by
  have hready : squeezeReadyCounted s = (s.squeezeReady, if s.sqzPos = s.rate then 1 else 0) := by
    rw [squeezeReadyCounted, State.squeezeReady]
    split_ifs <;> rfl
  rw [squeezeCounted, hready]
  rfl

theorem squeezeCounted_fst (n : Nat) (s : State) : (squeezeCounted n s).1 = State.squeezeLoop n s := by
  induction n generalizing s with
  | zero => rfl
  | succ n ih => rw [squeezeCounted_succ, ih, State.squeezeLoop_succ]

/-! How often they permute (R148). -/

/-- A window passed is a window counted. -/
theorem add_div_eq (a b r : Nat) (hr : 0 < r) : (a + b) / r = a / r + (a % r + b) / r := by
  conv_lhs => rw [← Nat.div_add_mod a r, Nat.add_assoc]
  exact Nat.mul_add_div hr _ _

theorem succ_toNat_eq_iff {pos rate : Byte} (h : pos.toNat < rate.toNat) :
    pos + 1 = rate ↔ pos.toNat + 1 = rate.toNat := by
  have hr := rate.isLt
  rw [← BitVec.toNat_inj, BitVec.toNat_add, show (1 : Byte).toNat = 1 from rfl, Nat.mod_eq_of_lt (by omega)]

theorem foldl_absorbByteCounted_snd (p : List Byte) {s : State} (h : s.pos.toNat < s.rate.toNat) (n : Nat) :
    (p.foldl absorbByteCounted (s, n)).2 = n + (s.pos.toNat + p.length) / s.rate.toNat := by
  have hr : 0 < s.rate.toNat := Nat.zero_lt_of_lt h
  induction p generalizing s n with
  | nil => rw [List.foldl_nil, List.length_nil, Nat.add_zero, Nat.div_eq_of_lt h, Nat.add_zero]
  | cons v p ih =>
    have hrate : (s.absorbByte v).rate = s.rate := by rw [State.absorbByte_eq]
    have hpos : (s.absorbByte v).pos.toNat = (s.pos.toNat + 1) % s.rate.toNat := by
      rw [State.absorbByte_eq, nextPos_toNat h]
    have hone : (s.pos.toNat + 1) / s.rate.toNat = if s.pos + 1 = s.rate then 1 else 0 := by
      simp only [succ_toNat_eq_iff h]
      split_ifs with he
      · rw [he, Nat.div_self hr]
      · exact Nat.div_eq_of_lt (by omega)
    rw [List.foldl_cons, absorbByteCounted_eq, ih (by rw [hpos, hrate]; exact Nat.mod_lt _ hr) _ (by rwa [hrate]),
      hpos, hrate, ← hone, Nat.add_assoc, ← add_div_eq _ _ _ hr, List.length_cons, Nat.add_assoc s.pos.toNat,
      Nat.add_comm 1]

theorem absorbCounted_snd (p : List Byte) {s : State} (h : s.pos.toNat < s.rate.toNat) :
    (absorbCounted s p).2 = (s.pos.toNat + p.length) / s.rate.toNat := by
  rw [absorbCounted, foldl_absorbByteCounted_snd p h, Nat.zero_add]

theorem squeezeCounted_snd (n : Nat) {s : State} (h1 : 1 ≤ s.rate.toNat) (hq : s.sqzPos.toNat ≤ s.rate.toNat) :
    (squeezeCounted n s).2 = (s.sqzPos.toNat + n - 1) / s.rate.toNat := by
  induction n generalizing s with
  | zero => exact (Nat.div_eq_of_lt (by omega)).symm
  | succ n ih =>
    have hrate : s.squeezeByte.2.rate = s.rate := by rw [State.squeezeByte_eq]
    have hpos : s.squeezeByte.2.sqzPos.toNat = s.sqzPos.toNat % s.rate.toNat + 1 := by
      rw [State.squeezeByte_eq, squeezeFrom_succ_toNat h1 hq]
    have hone : s.sqzPos.toNat / s.rate.toNat = if s.sqzPos = s.rate then 1 else 0 := by
      simp only [← BitVec.toNat_inj]
      split_ifs with he
      · rw [he, Nat.div_self h1]
      · exact Nat.div_eq_of_lt (Nat.lt_of_le_of_ne hq he)
    rw [squeezeCounted_succ, ih (by rwa [hrate]) (by rw [hpos, hrate]; exact Nat.mod_lt _ h1), hpos, hrate, ← hone,
      Nat.add_right_comm, Nat.add_sub_cancel, ← add_div_eq _ _ _ h1]
    rfl

/-- From a fresh window n bytes take P(n) permutations (R148). -/
theorem squeezeCounted_fresh (n : Nat) {s : State} (h1 : 1 ≤ s.rate.toNat) (hq : s.sqzPos = 0) :
    (squeezeCounted n s).2 = squeezePerms s.rate.toNat n := by
  have h0 : s.sqzPos.toNat = 0 := by rw [hq]; rfl
  rw [squeezeCounted_snd n h1 (by omega), h0, Nat.zero_add, squeezePerms]
  split_ifs with hn
  · rw [hn, Nat.zero_sub, Nat.zero_div]
  · rfl

/-! The table (R245). -/

theorem absorbingCheck_eq_none_iff (p : Phase) : absorbingCheck p = none ↔ p = .absorbing := by
  cases p <;> decide

theorem squeezingCheck_eq_none_iff (p : Phase) : squeezingCheck p = none ↔ p = .squeezing ∨ p = .done := by
  cases p <;> decide

theorem finalCheck_eq_none_iff (p : Phase) : finalCheck p = none ↔ p = .absorbing := by
  cases p <;> decide

/-- Settles O54: each loop's count is its formula, by induction on the bytes, with the bounds that the invariants
give. -/
theorem permutationCounts : Obligations.PermutationCounts := by
  refine ⟨fun i s h => ?_, fun s p => foldl_absorbByteCounted_fst p s 0, fun s n => squeezeCounted_fst n s⟩
  cases i with
  | status | clrErr | init | initK | xorIn | extract | permute => rfl
  | absorb p =>
    simp only [permutationsOf, costTable, absorbingCheck_eq_none_iff]
    split_ifs with hp
    · exact absorbCounted_snd p (h.absorbing hp).2
    · rfl
  | pad => simp only [permutationsOf, costTable, absorbingCheck_eq_none_iff]
  | squeeze n =>
    simp only [permutationsOf, costTable, squeezingCheck_eq_none_iff]
    split_ifs with hp hn
    · rw [hn]
      rfl
    · obtain ⟨h1, -, hq⟩ := h.squeezing hp
      exact squeezeCounted_snd _ h1 hq
    · rfl
  | final =>
    simp only [permutationsOf, costTable, finalCheck_eq_none_iff]
    split_ifs with hp
    · have hperms : (squeezeCounted s.outlen.toNat s.padAndSwitch).2 = squeezePerms s.rate.toNat s.outlen.toNat :=
        squeezeCounted_fresh _ (Nat.zero_lt_of_lt (h.absorbing hp).2) rfl
      rw [hperms]
    · rfl
  | hash p =>
    have hrate : (s.hashPadded p).rate = Config.kshakeRate := by simp [State.hashPadded]
    rw [permutationsOf, costTable, absorbCounted_snd p (s := s.initK) one_le_kshakeRate,
      squeezeCounted_fresh 40 (by rw [hrate]; exact one_le_kshakeRate) rfl, hrate]
    simp

end Sys2Proof.Machine
end

section
/-! Lanes and bytes (10_state.md R21; 20_memory.md R52). -/

namespace Sys2Proof.Machine

/-! Bits of a lane of bytes. -/

/-- m bytes as weighted digits stay below 2^(8m), and bit j of their sum is bit j mod 8 of byte j div 8. -/
theorem testBit_sum_bytes (f : Nat → Byte) (m : Nat) :
    ((List.range m).map fun k => (f k).toNat * 2 ^ (8 * k)).sum < 2 ^ (8 * m) ∧
    ∀ j, (((List.range m).map fun k => (f k).toNat * 2 ^ (8 * k)).sum).testBit j =
      (decide (j < 8 * m) && (f (j / 8)).getLsbD (j % 8)) := by
  induction m with
  | zero => simp
  | succ m ih =>
    obtain ⟨hlt, hbit⟩ := ih
    have hf := (f m).isLt
    rw [List.range_succ, List.map_append, List.sum_append, List.map_singleton, List.sum_singleton]
    generalize ((List.range m).map fun k => (f k).toNat * 2 ^ (8 * k)).sum = low at hlt hbit
    have hpow : 2 ^ (8 * (m + 1)) = 2 ^ (8 * m) * 256 := by rw [Nat.mul_succ, pow_add]; rfl
    refine ⟨by rw [hpow]; nlinarith, fun j => ?_⟩
    rw [Nat.add_comm, Nat.mul_comm, Nat.testBit_two_pow_mul_add _ hlt, hbit]
    by_cases hj : j < 8 * m
    · have hj' : j < 8 * (m + 1) := by omega
      simp [hj, hj']
    · rw [if_neg hj]
      by_cases hj' : j < 8 * (m + 1)
      · have hdiv : j / 8 = m := by omega
        have hmod : j - 8 * m = j % 8 := by omega
        simp [hj', hdiv, hmod, BitVec.getLsbD]
      · have : (f m).getLsbD (j - 8 * m) = false := BitVec.getLsbD_of_ge _ _ (by omega)
        simpa [hj', BitVec.getLsbD] using this

/-- Bit j of lane n is bit j mod 8 of byte 8n + j div 8 (R21). -/
theorem getLsbD_laneOfBytes (S : List Byte) (n : Nat) {j : Nat} (hj : j < 64) :
    (laneOfBytes S n).getLsbD j = (byteAt S (8 * n + j / 8)).getLsbD (j % 8) := by
  have hbit := (testBit_sum_bytes (fun k => byteAt S (8 * n + k)) 8).2 j
  rw [laneOfBytes, BitVec.getLsbD_ofNat, hbit]
  simp [hj]

/-- Lane (x, y) of a byte string (R21). -/
theorem laneXY_toLanes (S : List Byte) {x y : Nat} (hx : x < 5) (hy : y < 5) :
    laneXY (toLanes S) x y = laneOfBytes S (x + 5 * y) := by
  rw [laneXY, Nat.mod_eq_of_lt hx, Nat.mod_eq_of_lt hy, getD_toLanes S (by omega)]

/-- The lane at place n (R21). -/
theorem laneXY_toLanes_place (S : List Byte) {n : Nat} (hn : n < 25) :
    laneXY (toLanes S) (n % 5) (n / 5) = laneOfBytes S n := by
  rw [laneXY_toLanes S (Nat.mod_lt n (by decide)) (by omega), Nat.mod_add_div]

/-! There and back. -/

theorem byteAt_ofLanes_toLanes (S : List Byte) {a : Nat} (ha : a < 200) :
    byteAt (ofLanes (toLanes S)) a = byteAt S a := by
  rw [byteAt_ofLanes _ ha, getD_toLanes S (by omega)]
  apply BitVec.eq_of_getLsbD_eq
  intro j hj
  have hbyte : 8 * (a / 8) + (8 * (a % 8) + j) / 8 = a := by omega
  have hbit : (8 * (a % 8) + j) % 8 = j := by omega
  rw [BitVec.getLsbD_extractLsb', getLsbD_laneOfBytes S _ (by omega), hbyte, hbit, decide_eq_true hj, Bool.true_and]

theorem laneOfBytes_ofLanes (A : Lanes) {n : Nat} (hn : n < 25) : laneOfBytes (ofLanes A) n = A.getD n 0 := by
  apply BitVec.eq_of_getLsbD_eq
  intro j hj
  have hlane : (8 * n + j / 8) / 8 = n := by omega
  have hbit : 8 * ((8 * n + j / 8) % 8) + j % 8 = j := by omega
  rw [getLsbD_laneOfBytes _ n hj, byteAt_ofLanes A (by omega), BitVec.getLsbD_extractLsb', hlane, hbit,
    decide_eq_true (Nat.mod_lt j (by decide)), Bool.true_and]

/-- Two lists of one length that agree at every place are equal. -/
theorem list_ext_getD {α : Type} {d : α} {L M : List α} (hlen : L.length = M.length)
    (h : ∀ a, a < L.length → L.getD a d = M.getD a d) : L = M := by
  refine List.ext_getElem hlen fun a ha hb => ?_
  have := h a ha
  rwa [List.getD_eq_getElem _ _ ha, List.getD_eq_getElem _ _ hb] at this

/-- Settles O46: the bits of the sum of R21, and each direction place by place. -/
theorem lanesAreTheBytes : Obligations.LanesAreTheBytes := by
  refine ⟨fun S x y j hx hy hj => ?_, fun S hS => ?_, fun A hA => ?_⟩
  · rw [laneXY_toLanes S hx hy, getLsbD_laneOfBytes S _ hj]
  · refine list_ext_getD (d := 0) (by rw [length_ofLanes, hS]) fun a ha => ?_
    exact byteAt_ofLanes_toLanes S (by rwa [length_ofLanes] at ha)
  · refine list_ext_getD (d := 0) (by rw [length_toLanes, hA]) fun n hn => ?_
    rw [length_toLanes] at hn
    rw [getD_toLanes _ hn, laneOfBytes_ofLanes A hn]

/-! The adapter on lanes (20_memory.md R52). -/

theorem byteAt_bytes_xorByte (m : Memory) (a : Nat) (v : Byte) {b : Nat} (hb : b < 200) :
    byteAt (m.xorByte a v).bytes b = if a = b then byteAt m.bytes b ^^^ v else byteAt m.bytes b := by
  rw [Memory.byteAt_bytes _ b hb, Memory.byteAt_bytes _ b hb, Memory.read_xorByte]
  split_ifs with h
  · rw [h]
  · rfl

/-- A byte XORed in at address a goes into lane a div 8, at bit 8 (a mod 8), and into no other lane. -/
theorem laneOfBytes_xorByte (m : Memory) {a n : Nat} (v : Byte) (hn : n < 25) :
    laneOfBytes (m.xorByte a v).bytes n =
      if n = a / 8 then laneOfBytes m.bytes n ^^^ (v.zeroExtend 64 <<< (8 * (a % 8)))
      else laneOfBytes m.bytes n := by
  apply BitVec.eq_of_getLsbD_eq
  intro j hj
  rw [getLsbD_laneOfBytes _ n hj, byteAt_bytes_xorByte m a v (by omega)]
  by_cases hna : n = a / 8
  · rw [if_pos hna, BitVec.getLsbD_xor, getLsbD_laneOfBytes _ n hj, BitVec.getLsbD_shiftLeft]
    by_cases hab : a = 8 * n + j / 8
    · have hge : ¬j < 8 * (a % 8) := by omega
      have hsub : j - 8 * (a % 8) = j % 8 := by omega
      have hlt : j % 8 < 64 := by omega
      rw [if_pos hab, BitVec.getLsbD_xor]
      simp [hj, hge, hsub, hlt]
    · rw [if_neg hab]
      by_cases hge : j < 8 * (a % 8)
      · simp [hge]
      · have : v.getLsbD (j - 8 * (a % 8)) = false := BitVec.getLsbD_of_ge _ _ (by omega)
        simp [this]
  · rw [if_neg hna, if_neg (by omega), getLsbD_laneOfBytes _ n hj]

/-- The byte at address a, cut out of its lane. -/
theorem byte_of_lane (S : List Byte) (a : Nat) :
    ((laneOfBytes S (a / 8) >>> (8 * (a % 8))) &&& 0xFF).truncate 8 = byteAt S a := by
  apply BitVec.eq_of_getLsbD_eq
  intro j hj
  have hbyte : 8 * (a / 8) + (8 * (a % 8) + j) / 8 = a := by omega
  have hbit : (8 * (a % 8) + j) % 8 = j := by omega
  have hmask : (0xFF : Lane).getLsbD j = true := by interval_cases j <;> rfl
  have hlane := getLsbD_laneOfBytes S (a / 8) (j := 8 * (a % 8) + j) (by omega)
  rw [hbyte, hbit] at hlane
  rw [BitVec.truncate_eq_setWidth, BitVec.getLsbD_setWidth, BitVec.getLsbD_and, BitVec.getLsbD_ushiftRight, hmask,
    hlane, Bool.and_true, decide_eq_true hj, Bool.true_and]

/-- Settles O38: XOR_IN of one byte is one byte XORed in, and EXTRACT of one byte is that byte of its lane. -/
theorem adapterActsOnLanes : Obligations.AdapterActsOnLanes := by
  intro s a v ha
  refine ⟨⟨_, exec_xorIn_within s (by simpa using ha), fun n hn => ?_⟩,
    ⟨_, exec_extract_within s (len := 1) ha, ?_⟩⟩
  · rw [laneXY_toLanes_place _ hn, laneXY_toLanes_place _ hn]
    exact laneOfBytes_xorByte s.mem v hn
  · rw [laneXY_toLanes_place _ (by omega), byte_of_lane, Memory.byteAt_bytes _ _ ha]
    rfl

end Sys2Proof.Machine
end

section
/-! The permutation's step mappings and its tables (40_permutation.md R103 to R109, R115). -/

namespace Sys2Proof.Machine

/-! θ (R103). -/

theorem getD_map_range {α : Type} (f : Nat → α) (d : α) {n x : Nat} (h : x < n) :
    ((List.range n).map f).getD x d = f x := by
  rw [List.getD_eq_getElem _ _ (by simpa), List.getElem_map, List.getElem_range]

/-- The parity of column x. -/
theorem getD_thetaC (A : Lanes) (x : Nat) : (thetaC A).getD (x % 5) 0 =
    laneXY A x 0 ^^^ laneXY A x 1 ^^^ laneXY A x 2 ^^^ laneXY A x 3 ^^^ laneXY A x 4 := by
  have hmod : ∀ y, laneXY A (x % 5) y = laneXY A x y := fun y => by simp [laneXY]
  rw [thetaC, getD_map_range _ _ (Nat.mod_lt x (by decide))]
  simp only [hmod]

theorem laneXY_theta (A : Lanes) {x y : Nat} (hx : x < 5) (hy : y < 5) : laneXY (theta A) x y =
    laneXY A x y ^^^ ((thetaC A).getD ((x + 4) % 5) 0 ^^^ ((thetaC A).getD ((x + 1) % 5) 0).rotateLeft 1) := by
  rw [theta, laneXY_tabulate _ hx hy, thetaD, getD_map_range _ _ hx, rotl64_eq_rotateLeft]

/-! χ (R106). -/

theorem getLsbD_chi (A : Lanes) {x y j : Nat} (hx : x < 5) (hy : y < 5) (hj : j < 64) :
    (laneXY (chi A) x y).getLsbD j = ((laneXY A x y).getLsbD j ^^
      (!(laneXY A (x + 1) y).getLsbD j && (laneXY A (x + 2) y).getLsbD j)) := by
  rw [chi, laneXY_tabulate _ hx hy, BitVec.getLsbD_xor, BitVec.getLsbD_and, BitVec.getLsbD_not, decide_eq_true hj,
    Bool.true_and]

/-- Settles O43: each mapping is a table of its formula; θ's parities are column by column, and ρ's rotation is the
core library's. -/
theorem stepMappingsByLane : Obligations.StepMappingsByLane := by
  refine fun A x y hx hy => ⟨?_, ?_, fun j hj => getLsbD_chi A hx hy hj, fun i => laneXY_tabulate _ hx hy⟩
  · rw [laneXY_theta A hx hy, getD_thetaC, getD_thetaC]
  · rw [rho, laneXY_tabulate _ hx hy, rotl64_eq_rotateLeft]
    rfl

/-! π (R105). -/

/-- Settles O44: R105's read form at the target is a read of the source, and (u, v) is the target of
((u + 3v) mod 5, u) alone. -/
theorem piMovesLanes : Obligations.PiMovesLanes := by
  refine ⟨fun A x y hx hy => ?_, fun u v hu hv => ?_, fun A => laneXY_tabulate _ (by decide) (by decide)⟩
  · have hsource : (y + 3 * ((2 * x + 3 * y) % 5)) % 5 = x % 5 := by omega
    rw [piStep, laneXY_tabulate _ hy (Nat.mod_lt _ (by decide)), ← laneXY_mod, hsource, laneXY_mod]
  · refine ⟨(u + 3 * v) % 5, u, Nat.mod_lt _ (by decide), hu, rfl, by omega, fun x' y' hx' hy' hy hv' => ?_⟩
    omega

/-! The tables. -/

/-- The bits 0, 1, 3, 7, 15, 31 and 63, the 2^j − 1 of R108. -/
def roundConstantMask : Lane := 0x800000008000808B

theorem roundConstants_and_mask : roundConstants.all (fun c => c &&& roundConstantMask == c) = true := by decide

theorem mem_of_getLsbD_mask :
    ∀ j < 64, roundConstantMask.getLsbD j = true → j ∈ [0, 1, 3, 7, 15, 31, 63] := by decide

theorem getLsbD_roundConstant {c : Lane} (hc : c ∈ roundConstants) {j : Nat} (hj : j < 64)
    (h : c.getLsbD j = true) : j ∈ [0, 1, 3, 7, 15, 31, 63] := by
  have hmask : c &&& roundConstantMask = c := beq_iff_eq.mp (List.all_eq_true.mp roundConstants_and_mask c hc)
  rw [← hmask, BitVec.getLsbD_and, Bool.and_eq_true] at h
  exact mem_of_getLsbD_mask j hj h.2

theorem map_derivedRoundConstant :
    (List.range 24).map derivedRoundConstant = roundConstants.map BitVec.toNat := by decide +kernel

theorem rhoOffset_rhoWalk : ∀ t < 24, rhoOffset (rhoWalk t).1 (rhoWalk t).2 = derivedOffset t := by decide +kernel

theorem exists_rhoWalk : ∀ x < 5, ∀ y < 5, (x = 0 ∧ y = 0) ∨ ∃ t, t < 24 ∧ rhoWalk t = (x, y) := by
  decide +kernel

/-- Settles O45: both derivations are evaluated and compared with the tables, and the constants with their mask. -/
theorem tablesMatchDerivations : Obligations.TablesMatchDerivations :=
  ⟨map_derivedRoundConstant, fun _ hc _ => getLsbD_roundConstant hc, rfl, rhoOffset_rhoWalk,
    fun x y hx hy => exists_rhoWalk x hx y hy⟩

/-! The reference value (R115). -/

/-- R115's 25 lanes. -/
def keccakZeroLanes : Lanes :=
  [0xF1258F7940E1DDE7, 0x84D5CCF933C0478A, 0xD598261EA65AA9EE, 0xBD1547306F80494D, 0x8B284E056253D057,
   0xFF97A42D7F8E6FD4, 0x90FEE5A0A44647C4, 0x8C5BDA0CD6192E76, 0xAD30A6F71B19059C, 0x30935AB7D08FFC64,
   0xEB5AA93F2317D635, 0xA9A6E6260D712103, 0x81A57C16DBCF555F] ++
  [0x43B831CD0347C826, 0x01F22F1A11A5569F, 0x05E5635A21D9AE61, 0x64BEFEF28CC970F2, 0x613670957BC46611,
   0xB87C5A554FD00ECB, 0x8C3EE88A1CCF32C8, 0x940C7922AE3A2614, 0x1841F924A2C509E4, 0x16F53526E70465C2,
   0x75F644E97F30A13B, 0xEAF1FF7B5CECA249]

theorem keccakRounds_zero : keccakRounds (List.replicate 25 0) = keccakZeroLanes := by decide +kernel

/-- V1: the second application, from the lanes of the first. -/
theorem keccakRounds_keccakZeroLanes : laneXY (keccakRounds keccakZeroLanes) 0 0 = 0x2D5C954DF96ECB3C ∧
    laneXY (keccakRounds keccakZeroLanes) 1 0 = 0x6A332CD07057B56D := by decide +kernel

theorem keccakF_zero : keccakF (List.replicate 200 0x00) = ofLanes keccakZeroLanes := by
  rw [keccakF, toLanes_replicate_zero, keccakRounds_zero]

/-- Settles O42: KeccakF of the zero state is evaluated, and EXTRACT reads the first eight bytes of its lanes. -/
theorem keccakFOfZero : Obligations.KeccakFOfZero := by
  refine ⟨keccakRounds_zero, ?_, ?_, _, _, exec_of_success rfl rfl, exec_extract_within _ (by decide), ?_⟩
  · rw [keccakRounds_zero, keccakRounds_keccakZeroLanes.1]
  · rw [keccakRounds_zero, keccakRounds_keccakZeroLanes.2]
  · have hread : ∀ a, (Memory.permute []).read a = byteAt (ofLanes keccakZeroLanes) a := fun a => by
      rw [Memory.read_permute, Memory.bytes_nil, keccakF_zero]
    have hbytes : (Memory.permute []).readBytes 0 8 = [0xe7, 0xdd, 0xe1, 0x40, 0x79, 0x8f, 0x25, 0xf1] := by
      simp only [Memory.readBytes, hread]
      decide
    rw [State.succeed_resp, State.succeed_resp, State.succeed_mem, effect, State.permute_mem, State.reset_mem,
      show (0 : Byte).toNat = 0 from rfl, show (8 : Byte).toNat = 8 from rfl, hbytes]
    rfl

end Sys2Proof.Machine
end
